-- ==== Sys2Proof/Word.lean ====
section
/-! DEFINITION. The word types of EGB: the byte every access moves (R50, R61), the 32-bit value
(R7, `W` and `AW`), the 48-bit command word (R7, `CMD_W`). -/

namespace Sys2Proof

/-- One byte of the source, the sink or the scanner buffer (R50). -/
abbrev Byte := BitVec 8

/-- One 32-bit value: an operand, a result, an offset of the scanner buffer (R7). -/
abbrev Word := BitVec 32

/-- One 48-bit command word (R91, R92). -/
abbrev Command := BitVec 48

end Sys2Proof
end

