-- ==== Sys2Proof/Syntax.lean ====
section
/-! DEFINITION. The seventeen commands of EGB (R92), one constructor per row of the opcode table. -/

namespace Sys2Proof

/-- A command with its operands as R93 assembles them. -/
inductive Instr where
  /-- `read_bit()`, R111. -/
  | readBit
  /-- `read_byte()`, R112. -/
  | readByte
  /-- `read_exp_golomb_code()`, R113. -/
  | readExpGolombCode
  /-- `read_ue()`, R114. -/
  | readUe
  /-- `read_se()`, R115. -/
  | readSe
  /-- `rd_reset()`, R116. -/
  | rdReset
  /-- `write_bit(b)`, R132: `b` is `imm[0]`. -/
  | writeBit (b : BitVec 1)
  /-- `write_bool(b)`, R133: `b` is `imm[0]`, 1 for true. -/
  | writeBool (b : Bool)
  /-- `write_byte(v)`, R134: `v` is `imm[7:0]`. -/
  | writeByte (v : Byte)
  /-- `write_n_bits(n, value)`, R135: `n` is the whole count field, 0 to 255. -/
  | writeNBits (n : BitVec 8) (value : Word)
  /-- `write_ue(value)`, R137: unsigned. -/
  | writeUe (value : Word)
  /-- `write_se(value)`, R138: two's complement. -/
  | writeSe (value : Word)
  /-- `flush()`, R139. -/
  | flush
  /-- `wr_reset()`, R140. -/
  | wrReset
  /-- `ns_init(len)`, R162: unsigned. -/
  | nsInit (len : Word)
  /-- `ns_next()`, R163. -/
  | nsNext
  /-- `ns_reset()`, R164. -/
  | nsReset
  deriving DecidableEq, Repr

end Sys2Proof
end

