-- ==== Sys2Proof/WellFormed.lean ====
section
/-! DEFINITION. Which command words are commands (R96), written from the machine-readable opcode
table row by row. The operand types of `Instr` are exactly the fields of R93, so every `Instr` is
well formed; what can be ill formed is a word. -/

namespace Sys2Proof

/-- One row of spec/opcode_table.json: a word is this command when it agrees with `pattern` on the
bits of `mask`. -/
structure TableRow where
  mnemonic : String
  pattern : Command
  mask : Command
  deriving DecidableEq, Repr

/-- The rows of RD (R92). -/
def rdRows : List TableRow :=
  [ ⟨"read_bit",             0x010000000000, 0xFFFFFFFFFFFF⟩,
    ⟨"read_byte",            0x020000000000, 0xFFFFFFFFFFFF⟩,
    ⟨"read_exp_golomb_code", 0x030000000000, 0xFFFFFFFFFFFF⟩,
    ⟨"read_ue",              0x040000000000, 0xFFFFFFFFFFFF⟩,
    ⟨"read_se",              0x050000000000, 0xFFFFFFFFFFFF⟩,
    ⟨"rd_reset",             0x0F0000000000, 0xFFFFFFFFFFFF⟩ ]

/-- The rows of WR (R92). -/
def wrRows : List TableRow :=
  [ ⟨"write_bit",            0x110000000000, 0xFFFFFFFFFFFE⟩,
    ⟨"write_bool",           0x120000000000, 0xFFFFFFFFFFFE⟩,
    ⟨"write_byte",           0x130000000000, 0xFFFFFFFFFF00⟩,
    ⟨"write_n_bits",         0x140000000000, 0xFF0000000000⟩,
    ⟨"write_ue",             0x150000000000, 0xFFFF00000000⟩,
    ⟨"write_se",             0x160000000000, 0xFFFF00000000⟩,
    ⟨"flush",                0x170000000000, 0xFFFFFFFFFFFF⟩,
    ⟨"wr_reset",             0x1F0000000000, 0xFFFFFFFFFFFF⟩ ]

/-- The rows of NS (R92). -/
def nsRows : List TableRow :=
  [ ⟨"ns_init",              0x210000000000, 0xFFFF00000000⟩,
    ⟨"ns_next",              0x220000000000, 0xFFFFFFFFFFFF⟩,
    ⟨"ns_reset",             0x2F0000000000, 0xFFFFFFFFFFFF⟩ ]

/-- The opcode table. -/
def opcodeTable : List TableRow := rdRows ++ wrRows ++ nsRows

/-- A word fits a row when the row's fixed bits are as the row gives them. -/
def TableRow.fits (r : TableRow) (w : Command) : Bool := w &&& r.mask == r.pattern

/-- A command word is well formed when some row of the table has it; every other word is illegal
(R96). -/
def wellFormedWord (w : Command) : Bool := opcodeTable.any (·.fits w)

/-- The row an instruction stands in. -/
def Instr.mnemonic : Instr → String
  | .readBit => "read_bit"
  | .readByte => "read_byte"
  | .readExpGolombCode => "read_exp_golomb_code"
  | .readUe => "read_ue"
  | .readSe => "read_se"
  | .rdReset => "rd_reset"
  | .writeBit _ => "write_bit"
  | .writeBool _ => "write_bool"
  | .writeByte _ => "write_byte"
  | .writeNBits _ _ => "write_n_bits"
  | .writeUe _ => "write_ue"
  | .writeSe _ => "write_se"
  | .flush => "flush"
  | .wrReset => "wr_reset"
  | .nsInit _ => "ns_init"
  | .nsNext => "ns_next"
  | .nsReset => "ns_reset"

end Sys2Proof
end

