-- ==== Sys2Proof/Decode.lean ====
section
/-! DEFINITION. Command words to instructions and back (R92, R93, R96). Decoding is total, never
depends on state (R97), and rejects by name. -/

namespace Sys2Proof

/-- Why a word is not a command (R96). -/
inductive Illegal where
  /-- `op` is none of the seventeen values of R92. -/
  | unassignedOpcode
  /-- The `n` field must be zero and is not. -/
  | countNotZero
  /-- Bits of the `imm` field that must be zero are not. -/
  | operandNotZero
  deriving DecidableEq, Repr

/-- What decoding a word gives. -/
inductive Decoded where
  | instr (i : Instr)
  | illegal (why : Illegal)
  deriving DecidableEq, Repr

/-- Bits 47 to 40: the opcode (R92). -/
def opField (w : Command) : BitVec 8 := w.extractLsb' 40 8

/-- Bits 39 to 32: the count (R92). -/
def countField (w : Command) : BitVec 8 := w.extractLsb' 32 8

/-- Bits 31 to 0: the operand (R92). -/
def immField (w : Command) : Word := w.extractLsb' 0 32

/-- A command whose `n` field must be zero and whose operand lies in the low `width` bits of `imm`,
the bits above it zero (R93). -/
def decodeOperand (w : Command) (width : Nat) (i : Instr) : Decoded :=
  if countField w ≠ 0 then .illegal .countNotZero
  else if immField w >>> width ≠ 0 then .illegal .operandNotZero
  else .instr i

/-- The opcode map of R92, complete. -/
def decode (w : Command) : Decoded :=
  match (opField w).toNat with
  | 0x01 => decodeOperand w 0 .readBit
  | 0x02 => decodeOperand w 0 .readByte
  | 0x03 => decodeOperand w 0 .readExpGolombCode
  | 0x04 => decodeOperand w 0 .readUe
  | 0x05 => decodeOperand w 0 .readSe
  | 0x0F => decodeOperand w 0 .rdReset
  | 0x11 => decodeOperand w 1 (.writeBit ((immField w).extractLsb' 0 1))
  | 0x12 => decodeOperand w 1 (.writeBool ((immField w).getLsbD 0))
  | 0x13 => decodeOperand w 8 (.writeByte ((immField w).extractLsb' 0 8))
  | 0x14 => .instr (.writeNBits (countField w) (immField w))
  | 0x15 => decodeOperand w 32 (.writeUe (immField w))
  | 0x16 => decodeOperand w 32 (.writeSe (immField w))
  | 0x17 => decodeOperand w 0 .flush
  | 0x1F => decodeOperand w 0 .wrReset
  | 0x21 => decodeOperand w 32 (.nsInit (immField w))
  | 0x22 => decodeOperand w 0 .nsNext
  | 0x2F => decodeOperand w 0 .nsReset
  | _ => .illegal .unassignedOpcode

/-- The instruction of a word, where it has one. -/
def Decoded.instr? : Decoded → Option Instr
  | .instr i => some i
  | .illegal _ => none

/-- The opcode of an instruction (R92). -/
def encodeOp : Instr → BitVec 8
  | .readBit => 0x01
  | .readByte => 0x02
  | .readExpGolombCode => 0x03
  | .readUe => 0x04
  | .readSe => 0x05
  | .rdReset => 0x0F
  | .writeBit _ => 0x11
  | .writeBool _ => 0x12
  | .writeByte _ => 0x13
  | .writeNBits _ _ => 0x14
  | .writeUe _ => 0x15
  | .writeSe _ => 0x16
  | .flush => 0x17
  | .wrReset => 0x1F
  | .nsInit _ => 0x21
  | .nsNext => 0x22
  | .nsReset => 0x2F

/-- The count field of an instruction: zero for every command but `write_n_bits` (R92). -/
def encodeCount : Instr → BitVec 8
  | .writeNBits n _ => n
  | .readBit | .readByte | .readExpGolombCode | .readUe | .readSe | .rdReset
  | .writeBit _ | .writeBool _ | .writeByte _ | .writeUe _ | .writeSe _ | .flush | .wrReset
  | .nsInit _ | .nsNext | .nsReset => 0

/-- The operand field of an instruction (R93). -/
def encodeImm : Instr → Word
  | .writeBit b => b.setWidth 32
  | .writeBool b => if b then 1 else 0
  | .writeByte v => v.setWidth 32
  | .writeNBits _ value => value
  | .writeUe value => value
  | .writeSe value => value
  | .nsInit len => len
  | .readBit | .readByte | .readExpGolombCode | .readUe | .readSe | .rdReset
  | .flush | .wrReset | .nsNext | .nsReset => 0

/-- The command word of an instruction: `op ‖ n ‖ imm` (R92). -/
def encode (i : Instr) : Command := (encodeOp i ++ encodeCount i ++ encodeImm i : BitVec (8 + 8 + 32))

/-- The word whose low `nbits` bits are those of `w`, every bit above them zero. A command word is
one word of 48 bits, so bit 0 of the opcode table is its bit 0 (log entry 6). -/
def tableWord (nbits w : Nat) : Command := BitVec.ofNat 48 (w % 2 ^ nbits)

/-- What the decoder reads from an instruction given as the opcode table numbers its bits. -/
def decodeTableWord (nbits w : Nat) : Option Instr := (decode (tableWord nbits w)).instr?

end Sys2Proof
end

