-- ==== Sys2Proof/Config.lean ====
section
/-! DEFINITION. What an implementation fixes (R7) and the values the spec leaves open (R40). -/

namespace Sys2Proof

/-- The parameters a model takes as arguments (R7): `K_MAX`, the longest zero prefix of an
Exponential-Golomb code. The machine's state carries it, and no step writes it. -/
structure Params where
  kMax : Nat
  deriving DecidableEq, Repr

/-- `K_MAX` as R7 gives it by default. -/
def Params.standard : Params := { kMax := 31 }

/-- The range R7 gives `K_MAX`. -/
abbrev Params.Legal (p : Params) : Prop := 16 ≤ p.kMax ∧ p.kMax ≤ 31

/-- The data registers of a unit that has faulted hold unspecified values (R40; log entry 5). The
argument is a counter of draws, so that two faults need not leave the same value. -/
opaque Config.freeRdCur : Nat → Byte

/-- `RD.off` after a fault (R40): unspecified among the values 0 to 8 the register has (R20). -/
opaque Config.freeRdOff : Nat → Fin 9

/-- `WR.acc` after a fault (R40). -/
opaque Config.freeWrAcc : Nat → Byte

/-- `WR.pos` after a fault (R40): unspecified among the values 0 to 7 the register has (R20). -/
opaque Config.freeWrPos : Nat → Fin 8

/-- `NS.len` after a fault (R40). -/
opaque Config.freeNsLen : Nat → Word

/-- `NS.pos` after a fault (R40). -/
opaque Config.freeNsPos : Nat → Word

end Sys2Proof
end

