-- ==== Sys2Proof/Machine/State.lean ====
section
/-! DEFINITION. The state of one EGB block and of the environment its steps depend on: the twelve
registers (R20), the source, the sink and the scanner buffer (R37), the commands in progress (R74),
the host port (R91, R94). Plain data throughout. -/

namespace Sys2Proof.Machine

/-- `RD.st` and `WR.st` (R29). -/
inductive UnitStatus where
  | ready
  | fault
  deriving DecidableEq, Repr

/-- `NS.st` (R29, R160). -/
inductive NsStatus where
  | uninit
  | ready
  | done
  | fault
  deriving DecidableEq, Repr

/-- The registers of RD (R20). `off` is the four-bit register with its values 0 to 8 (R22; log
entry 7). -/
structure Rd where
  cur : Byte
  off : Fin 9
  st : UnitStatus
  fault : Byte
  deriving DecidableEq, Repr

/-- The registers of WR (R20). `pos` is the three-bit register with its values 0 to 7 (R24). -/
structure Wr where
  acc : Byte
  pos : Fin 8
  st : UnitStatus
  fault : Byte
  deriving DecidableEq, Repr

/-- The registers of NS (R20). -/
structure Ns where
  len : Word
  pos : Word
  st : NsStatus
  fault : Byte
  deriving DecidableEq, Repr

/-- RD after reset (R38). -/
def Rd.reset : Rd := { cur := 0x00, off := 8, st := .ready, fault := 0x00 }

/-- WR after reset (R38). -/
def Wr.reset : Wr := { acc := 0x00, pos := 0, st := .ready, fault := 0x00 }

/-- NS after reset (R38). -/
def Ns.reset : Ns := { len := 0, pos := 0, st := .uninit, fault := 0x00 }

/-- How the value of a decoded code is delivered: as it is (R113, R114) or through the signed
mapping (R115). -/
inductive CodeForm where
  | unsigned
  | signed
  deriving DecidableEq, Repr

/-- What an RD command that waits for the source has still to do (R74). -/
inductive RdJob where
  /-- `read_bit`: the bit is still to be read (R111). -/
  | bit
  /-- `read_byte`: the byte is still to be pulled (R112). -/
  | byte
  /-- A code's prefix: `k` zero bits have been read (R113). -/
  | zeros (form : CodeForm) (k : Nat)
  /-- A code's suffix: `left` of its `k` bits are still to be read, the others have the value
  `suffix` (R113). -/
  | suffix (form : CodeForm) (k left suffix : Nat)
  deriving DecidableEq, Repr

/-- What a WR command that waits for the sink has still to do (R74). -/
inductive WrJob where
  /-- These bits are still to be written, the first of them next (R130). -/
  | bits (rest : List Bool)
  /-- `write_byte`: the byte is still to be pushed (R134). -/
  | byte (v : Byte)
  /-- `flush`: the pending byte is still to be pushed (R139). -/
  | flush
  deriving DecidableEq, Repr

/-- How the source answers one pull (R52): it delivers its next byte, or reports underrun when it
has none; it fails otherwise; or it withholds its answer. Which it does is the environment's choice
(93 U6; log entry 11), so it stands in the state as data and a statement about every state holds for every choice. -/
inductive PullAnswer where
  | deliver
  | fail
  | withhold
  deriving DecidableEq, Repr

/-- How the sink answers one push (R55): it appends the byte; it fails, and then holds `left` after
the bytes it had acknowledged, any bytes at all (R55, 93 U7); or it withholds its answer. -/
inductive PushAnswer where
  | accept
  | fail (left : List Byte)
  | withhold
  deriving DecidableEq, Repr

/-- The byte source (R37, R51): its bytes, how many have been pulled, and its answers to the pulls
to come, oldest first; when these run out it delivers. -/
structure Source where
  bytes : List Byte
  idx : Nat
  answers : List PullAnswer
  deriving DecidableEq, Repr

/-- The byte sink (R37, R54): the bytes pushed so far, oldest first, and its answers to the pushes
to come, oldest first; when these run out it accepts. -/
structure Sink where
  bytes : List Byte
  answers : List PushAnswer
  deriving DecidableEq, Repr

/-- The scanner buffer (R57): bytes by offset, strictly rising, no entry equal to what an unlisted
offset reads as (log entry 2). -/
abbrev Memory := List Host.Cell

/-- One response (R94). -/
structure Response where
  status : Byte
  r0 : Word
  r1 : Word
  deriving DecidableEq, Repr

/-- What reaches the block from outside, one at a time (R91, R220, R223 to R225, R74). -/
inductive Input where
  /-- The host presents a command word (R91). -/
  | command (w : Command)
  /-- Hardware reset (R220). -/
  | hardwareReset
  /-- The environment binds a source for RD's next instance (R223). -/
  | bindSource (source : Source)
  /-- The environment binds a sink for WR's next instance (R224). -/
  | bindSink (sink : Sink)
  /-- The host places a byte stream in the scanner buffer, from offset 0 (R225). -/
  | placeBuffer (bytes : List Byte)
  /-- The source answers the pull it has withheld an answer to (R74). -/
  | sourceAnswers
  /-- The sink answers the push it has withheld an answer to (R74). -/
  | sinkAnswers
  deriving DecidableEq, Repr

/-- The state. -/
structure State where
  /-- The parameter `K_MAX` (R7). -/
  params : Params
  rd : Rd
  wr : Wr
  ns : Ns
  /-- The RD command that waits for the source, if any (R74). -/
  rdJob : Option RdJob
  /-- The WR command that waits for the sink, if any (R74). -/
  wrJob : Option WrJob
  source : Source
  sink : Sink
  /-- The memory in which the host places byte streams (R225). -/
  buf : Memory
  /-- The buffer of NS's instance, fixed for the life of the scan (R37, R57): what `buf` held at its
  `ns_init`. While `NS.st = READY` the two are equal; once the scan has ended the host may place the
  next stream in `buf` (log entry 16). -/
  scanBuf : Memory
  /-- Inputs not yet taken, oldest first (R91). -/
  inputs : List Input
  /-- Responses given, oldest first (R94). -/
  responses : List Response
  /-- The model's own: how many free values have been drawn (log entry 5). -/
  freeIdx : Nat
  deriving DecidableEq, Repr

/-- Why the machine stops with a fault. No command of EGB does: each of its errors is a response
(R180). -/
inductive Fault where
  /-- Raised by the port when the host places a byte beyond the last offset of the scanner buffer's
  space, whose offsets have 32 bits (R57). Safe: the model stops. -/
  | bufferOffsetOutside
  deriving DecidableEq, Repr

/-- Why the model gives no next state. -/
inductive Refusal where
  /-- Raised by `exec` for an instruction that has no meaning yet. Safe. -/
  | notModelled (mnemonic : String)
  /-- Raised by every RD command presented while an earlier RD command waits for the source: the host
  may not present it (R91, R235), and the spec gives it no effect. Safe. -/
  | readerBusy
  /-- Raised by every WR command presented while an earlier WR command waits for the sink: the host
  may not present it (R91, R235), and the spec gives it no effect. Safe. -/
  | writerBusy
  /-- Raised by the port when a source is bound while the RD instance that owns the old one lives
  on: a breach of R226 that the block cannot detect and the spec gives no effect. Safe. -/
  | sourceInUse
  /-- Raised by the port when a sink is bound while the WR instance that owns the old one lives on: a
  breach of R226 that the block cannot detect and the spec gives no effect. Safe. -/
  | sinkInUse
  /-- Raised by the port when the scanner buffer is changed while `NS.st = READY`: a breach of R57 and
  R232 that the block cannot detect and the spec gives no effect. Safe. -/
  | bufferInUse
  deriving DecidableEq, Repr

/-- The state right after hardware reset (R220, R38), before the environment has bound or placed
anything and before the host has presented a command (log entries 1 to 3). -/
def State.reset : State where
  params := Params.standard
  rd := Rd.reset
  wr := Wr.reset
  ns := Ns.reset
  rdJob := none
  wrJob := none
  source := { bytes := [], idx := 0, answers := [] }
  sink := { bytes := [], answers := [] }
  buf := []
  scanBuf := []
  inputs := []
  responses := []
  freeIdx := 0

end Sys2Proof.Machine
end

