-- ==== Sys2Proof/Machine/Ops.lean ====
section
/-! DEFINITION. The named operations: status codes, the scanner buffer, a pull, a push, giving a
response, entering a fault and leaving it by a reset. -/

namespace Sys2Proof.Machine

/-! ### Status codes -/

/-- The statuses of R95. -/
inductive Status where
  | ok
  | endOfUnits
  | srcUnderrun
  | srcIo
  | snkIo
  | badStartCode
  | codeTooLong
  | valueRange
  | badWidth
  | unitFaulted
  | notReady
  | illegalCmd
  deriving DecidableEq, Repr

/-- The code of a status (R95). -/
def Status.code : Status → Byte
  | .ok => 0x00
  | .endOfUnits => 0x01
  | .srcUnderrun => 0x10
  | .srcIo => 0x11
  | .snkIo => 0x12
  | .badStartCode => 0x20
  | .codeTooLong => 0x30
  | .valueRange => 0x31
  | .badWidth => 0x32
  | .unitFaulted => 0x40
  | .notReady => 0x41
  | .illegalCmd => 0x7F

/-! ### The scanner buffer -/

/-- What an offset that the buffer does not list reads as (log entry 2). -/
def unlistedByte : Byte := 0x00

/-- `BufRead(a)` (R58). -/
def Memory.read : Memory → Nat → Byte
  | [], _ => unlistedByte
  | (a', b') :: rest, a => if a = a' then b' else Memory.read rest a

/-- The buffer with byte `b` at offset `a`, in canonical form again. -/
def Memory.write : Memory → Nat → Byte → Memory
  | [], a, b => if b = unlistedByte then [] else [(a, b)]
  | (a', b') :: rest, a, b =>
    if a < a' then (if b = unlistedByte then (a', b') :: rest else (a, b) :: (a', b') :: rest)
    else if a = a' then (if b = unlistedByte then rest else (a, b) :: rest)
    else (a', b') :: Memory.write rest a b

/-- The buffer with a run of bytes placed from offset `a` upwards. -/
def Memory.place : Memory → Nat → List Byte → Memory
  | m, _, [] => m
  | m, a, b :: bytes => Memory.place (m.write a b) (a + 1) bytes

/-- How many offsets the scanner buffer's space has: `2^AW` (R7, R57). -/
def bufferSpace : Nat := 2 ^ 32

/-- Offsets strictly rising from `low` on, all inside the space, no entry equal to what an unlisted
offset reads as. -/
def Memory.wfFrom : Nat → Memory → Bool
  | _, [] => true
  | low, (a, b) :: rest =>
    decide (low ≤ a) && decide (a < bufferSpace) && decide (b ≠ unlistedByte)
      && Memory.wfFrom (a + 1) rest

/-- The canonical form of the scanner buffer. -/
def Memory.wf (m : Memory) : Bool := Memory.wfFrom 0 m

/-! ### One pull and one push -/

/-- What a pull comes to (R52). -/
inductive Pull where
  | byte (b : Byte) (src : Source)
  | failed (cause : Status) (src : Source)
  | withheld (src : Source)
  deriving DecidableEq, Repr

/-- The source delivers: outcome 1 of R52 while it has a byte, outcome 2 when it has none. -/
def Source.deliver (src : Source) : Pull :=
  match src.bytes[src.idx]? with
  | some b => .byte b { src with idx := src.idx + 1 }
  | none => .failed .srcUnderrun src

/-- `SrcPull()` (R52). A pull that fails or is withheld delivers no byte and leaves the position
(log entry 8). -/
def Source.pull (src : Source) : Pull :=
  match src.answers with
  | [] => src.deliver
  | .deliver :: rest => Source.deliver { src with answers := rest }
  | .fail :: rest => .failed .srcIo { src with answers := rest }
  | .withhold :: rest => .withheld { src with answers := rest }

/-- What a push comes to (R55). -/
inductive Push where
  | accepted (snk : Sink)
  | failed (cause : Status) (snk : Sink)
  | withheld (snk : Sink)
  deriving DecidableEq, Repr

/-- `SnkPush(b)` (R55). A push that is withheld an answer appends nothing until it is made again and
accepted; so a byte offered to a sink that had not answered when hardware reset aborted the command
is not in the sink. The spec leaves that open; the choice is the model's (log entry 17). -/
def Sink.push (snk : Sink) (b : Byte) : Push :=
  match snk.answers with
  | [] => .accepted { snk with bytes := snk.bytes ++ [b] }
  | .accept :: rest => .accepted { bytes := snk.bytes ++ [b], answers := rest }
  | .fail left :: rest => .failed .snkIo { bytes := snk.bytes ++ left, answers := rest }
  | .withhold :: rest => .withheld { snk with answers := rest }

/-! ### Responses -/

/-- The command answers (R94). -/
def State.respond (status : Status) (r0 r1 : Word) (s : State) : State :=
  { s with responses := s.responses ++ [{ status := status.code, r0 := r0, r1 := r1 }] }

/-! ### Entering a fault, and leaving it -/

/-- The three units (R2). -/
inductive EgbUnit where
  | rd
  | wr
  | ns
  deriving DecidableEq, Repr

/-- The faulted unit's registers (R190, R40): `st` and `fault` as R190 says, the data registers
unspecified (log entry 5). -/
def State.markFaulted (u : EgbUnit) (cause : Status) (s : State) : State :=
  match u with
  | .rd => { s with
      rd := { cur := Config.freeRdCur s.freeIdx, off := Config.freeRdOff s.freeIdx,
              st := .fault, fault := cause.code }
      freeIdx := s.freeIdx + 1 }
  | .wr => { s with
      wr := { acc := Config.freeWrAcc s.freeIdx, pos := Config.freeWrPos s.freeIdx,
              st := .fault, fault := cause.code }
      freeIdx := s.freeIdx + 1 }
  | .ns => { s with
      ns := { len := Config.freeNsLen s.freeIdx, pos := Config.freeNsPos s.freeIdx,
              st := .fault, fault := cause.code }
      freeIdx := s.freeIdx + 1 }

/-- `raise F(info)` in a command of unit `u` (R14, R190): the unit faults, the command answers with
the cause and its info value, no result is delivered. What the command did to the source or the sink
before stands in `s` (R191). -/
def State.raise (u : EgbUnit) (cause : Status) (info : Word) (s : State) : State :=
  (s.markFaulted u cause).respond cause info 0

/-- The registers of one unit at their reset values (R221, R38): the only way out of a fault
(R192). -/
def State.resetUnit (u : EgbUnit) (s : State) : State :=
  match u with
  | .rd => { s with rd := Rd.reset }
  | .wr => { s with wr := Wr.reset }
  | .ns => { s with ns := Ns.reset }

/-- Hardware reset (R220): every register of every unit at its reset value, a command in progress
aborted without a response; nothing pulled or pushed, the environment untouched. -/
def State.hardwareReset (s : State) : State :=
  { (((s.resetUnit .rd).resetUnit .wr).resetUnit .ns) with rdJob := none, wrJob := none }

end Sys2Proof.Machine
end

