-- ==== Sys2Proof/Machine/Operands.lean ====
section
/-! DEFINITION. The data encodings of EGB (30_encoding.md part A): bit sequences, the fixed-width
field, the Exponential-Golomb code, the signed mapping, and how results fill a response. -/

namespace Sys2Proof.Machine

/-- The bits of the low `n` bits of `v`, most significant first (R81). -/
def fieldBits : Nat → Nat → List Bool
  | 0, _ => []
  | n + 1, v => v.testBit n :: fieldBits n v

/-- The number whose bits, most significant first, follow the bits of `acc` (R59). -/
def bitsValue : Nat → List Bool → Nat
  | acc, [] => acc
  | acc, b :: rest => bitsValue (2 * acc + b.toNat) rest

/-- The bits of a byte in transfer order (R80). -/
def byteBits (b : Byte) : List Bool := fieldBits 8 b.toNat

/-- The bits of a byte sequence in transfer order (R80). -/
def bytesBits (bytes : List Byte) : List Bool := bytes.flatMap byteBits

/-- The prefix length of the code of `v`: `floor(log2(v + 1))` (R82). -/
def bucket (v : Nat) : Nat := (v + 1).log2

/-- The Exponential-Golomb code of `v` in transfer order (R82). -/
def codeBits (v : Nat) : List Bool :=
  fieldBits (bucket v) 0 ++ true :: fieldBits (bucket v) (v - (2 ^ bucket v - 1))

/-- The value of the code with `k` leading zero bits and this suffix (R82, R113). -/
def codeValue (k suffix : Nat) : Nat := suffix + 2 ^ k - 1

/-- `UE_MAX`, the largest code value (R7, R84). -/
def ueMax (p : Params) : Nat := 2 ^ (p.kMax + 1) - 2

/-- `SE_MAX`, the largest magnitude of a signed value (R7, R86). -/
def seMax (p : Params) : Nat := 2 ^ p.kMax - 1

/-- The code value of a signed value (R86, R138), computed without wrap-around. -/
def signedToCode (s : Int) : Nat := if s > 0 then (2 * s - 1).toNat else (-2 * s).toNat

/-- The signed value of a code value (R86, R115). -/
def codeToSigned (c : Nat) : Int :=
  if c % 2 = 1 then ((c + 1) / 2 : Nat) else -((c / 2 : Nat) : Int)

/-- `zext_32` of a bit (R94). -/
def bitWord (b : Bool) : Word := if b then 1 else 0

/-- `zext_32` of a byte (R94). -/
def byteWord (b : Byte) : Word := b.setWidth 32

/-- `r0` for a decoded code value (R94): the value itself, or the signed value in two's
complement. -/
def codeWord (form : CodeForm) (code : Nat) : Word :=
  match form with
  | .unsigned => BitVec.ofNat 32 code
  | .signed => BitVec.ofInt 32 (codeToSigned code)

/-- The largest `n` of `write_n_bits`, `N_MAX` (R7). -/
def nMax : Nat := 32

end Sys2Proof.Machine
end

