-- ==== Sys2Proof/Machine/Flags.lean ====
section
/-! DEFINITION. The status registers. EGB has no condition flags (R29, R39): `U.st` and `U.fault`
are all there is. A fault writes them (Ops), a reset clears them (Ops), and every other command
first tests them, as here. -/

namespace Sys2Proof.Machine

/-- The refusal of a command whose unit has faulted (R193): the first cause is reported, nothing
changes. -/
def State.refuseFaulted (cause : Byte) (s : State) : State :=
  s.respond .unitFaulted (byteWord cause) 0

/-- The preamble of an RD command (R117), after the port's rule that no command may be presented
while one is outstanding (R91). -/
def rdPreamble (body : State → State) (s : State) : Host.Outcome State Fault Refusal :=
  match s.rdJob with
  | some _ => .refused .readerBusy
  | none =>
    match s.rd.st with
    | .fault => .next (s.refuseFaulted s.rd.fault)
    | .ready => .next (body s)

/-- The preamble of a WR command (R131), after the port's rule that no command may be presented
while one is outstanding (R91). -/
def wrPreamble (body : State → State) (s : State) : Host.Outcome State Fault Refusal :=
  match s.wrJob with
  | some _ => .refused .writerBusy
  | none =>
    match s.wr.st with
    | .fault => .next (s.refuseFaulted s.wr.fault)
    | .ready => .next (body s)

/-- `rd_reset` has no preamble and is accepted in every state (R116), but like every command it may
not be presented while one is outstanding (R74, R91). -/
def rdUnlessBusy (body : State → State) (s : State) : Host.Outcome State Fault Refusal :=
  match s.rdJob with
  | some _ => .refused .readerBusy
  | none => .next (body s)

/-- The same for `wr_reset` (R140). -/
def wrUnlessBusy (body : State → State) (s : State) : Host.Outcome State Fault Refusal :=
  match s.wrJob with
  | some _ => .refused .writerBusy
  | none => .next (body s)

/-- The states of NS as `ns_next` tests them (R160, R163). -/
def nsPreamble (body : State → State) (s : State) : Host.Outcome State Fault Refusal :=
  match s.ns.st with
  | .uninit => .next (s.respond .notReady 0 0)
  | .fault => .next (s.refuseFaulted s.ns.fault)
  | .done => .next (s.respond .endOfUnits 0 0)
  | .ready => .next (body s)

end Sys2Proof.Machine
end

