-- ==== Sys2Proof/Machine/Reader.lean ====
section
/-! DEFINITION. The Bit Reader unit RD (40_bit_reader.md). -/

namespace Sys2Proof.Machine

/-- What a piece of RD work comes to: a result; a fault, which leaves the data registers
unspecified and so carries only the source (R40, R191); or a wait for the source, with what is still
to do (R74). -/
inductive RdRun (α : Type) where
  | done (a : α) (rd : Rd) (src : Source)
  | raised (cause : Status) (info : Word) (src : Source)
  | waits (job : RdJob) (rd : Rd) (src : Source)
  deriving DecidableEq, Repr

/-- Go on with the result of a piece of RD work. -/
def RdRun.andThen {α β : Type} (x : RdRun α) (f : α → Rd → Source → RdRun β) : RdRun β :=
  match x with
  | .done a rd src => f a rd src
  | .raised cause info src => .raised cause info src
  | .waits job rd src => .waits job rd src

/-- Deliver the bit `7 - RD.off` of `RD.cur` and count it (R110). -/
def takeBit (rd : Rd) (src : Source) : RdRun Bool :=
  .done (rd.cur.getLsbD (7 - rd.off.val)) { rd with off := rd.off + 1 } src

/-- `ReadBit()` (R110). `job` is what the command has still to do if the source withholds its
answer. -/
def readBit (job : RdJob) (rd : Rd) (src : Source) : RdRun Bool :=
  if rd.off = 8 then
    match src.pull with
    | .byte b src' => takeBit { rd with cur := b, off := 0 } src'
    | .failed cause src' => .raised cause 0 src'
    | .withheld src' => .waits job rd src'
  else takeBit rd src

/-- The prefix of a code (R113): `k` zero bits have been read and `left` more may follow; the number
of zero bits is the result. -/
def readZeros (form : CodeForm) : (left k : Nat) → Rd → Source → RdRun Nat
  | left, k, rd, src =>
    (readBit (.zeros form k) rd src).andThen fun b rd src =>
      if b then .done k rd src
      else
        match left with
        | 0 => .raised .codeTooLong (BitVec.ofNat 32 (k + 1)) src
        | left + 1 => readZeros form left (k + 1) rd src

/-- The suffix of a code (R113): `left` bits are still to be read after those of `suffix`. -/
def readSuffix (form : CodeForm) (k : Nat) : (left suffix : Nat) → Rd → Source → RdRun Nat
  | 0, suffix, rd, src => .done suffix rd src
  | left + 1, suffix, rd, src =>
    (readBit (.suffix form k (left + 1) suffix) rd src).andThen fun b rd src =>
      readSuffix form k left (2 * suffix + b.toNat) rd src

/-- The rest of a code once its prefix has `k` zero bits and part of the suffix is read (R113). -/
def finishCode (form : CodeForm) (k left suffix : Nat) (rd : Rd) (src : Source) : RdRun Word :=
  (readSuffix form k left suffix rd src).andThen fun suffix rd src =>
    .done (codeWord form (codeValue k suffix)) rd src

/-- A code from the point where `k` zero bits of its prefix have been read (R113). -/
def readCodeFrom (p : Params) (form : CodeForm) (k : Nat) (rd : Rd) (src : Source) : RdRun Word :=
  (readZeros form (p.kMax - k) k rd src).andThen fun k rd src => finishCode form k k 0 rd src

/-- `read_byte` (R112; log entry 10): the unread bits go, then a fresh byte comes, which does not pass through
`RD.cur`. -/
def pullByte (rd : Rd) (src : Source) : RdRun Word :=
  match src.pull with
  | .byte b src' => .done (byteWord b) { rd with off := 8 } src'
  | .failed cause src' => .raised cause 0 src'
  | .withheld src' => .waits .byte { rd with off := 8 } src'

/-- One RD command, from the start or from where it waited. The result is `r0`. -/
def runRd (p : Params) (job : RdJob) (rd : Rd) (src : Source) : RdRun Word :=
  match job with
  | .bit => (readBit .bit rd src).andThen fun b rd src => .done (bitWord b) rd src
  | .byte => pullByte rd src
  | .zeros form k => readCodeFrom p form k rd src
  | .suffix form k left suffix => finishCode form k left suffix rd src

/-- What a piece of RD work does to the state: it answers `OK` with its result (R94), raises its
fault (R190), or waits without an answer (R74). -/
def State.endRd (run : RdRun Word) (s : State) : State :=
  match run with
  | .done r0 rd src =>
    State.respond .ok r0 0 { s with rd := rd, source := src, rdJob := none }
  | .raised cause info src => State.raise .rd cause info { s with source := src, rdJob := none }
  | .waits job rd src => { s with rd := rd, source := src, rdJob := some job }

/-- Run one RD command to its answer or to its next wait. -/
def State.workRd (job : RdJob) (s : State) : State :=
  s.endRd (runRd s.params job s.rd s.source)

/-- The source answers a pull it had withheld an answer to: the waiting command goes on from there
(R74). Nothing happens when no RD command waits. -/
def State.resumeRd (s : State) : State :=
  match s.rdJob with
  | none => s
  | some job => s.workRd job

/-- `read_bit()` (R111). -/
def execReadBit (s : State) : Host.Outcome State Fault Refusal :=
  rdPreamble (State.workRd .bit) s

/-- `read_byte()` (R112). -/
def execReadByte (s : State) : Host.Outcome State Fault Refusal :=
  rdPreamble (State.workRd .byte) s

/-- `read_exp_golomb_code()` (R113). -/
def execReadExpGolombCode (s : State) : Host.Outcome State Fault Refusal :=
  rdPreamble (State.workRd (.zeros .unsigned 0)) s

/-- `read_ue()` (R114). -/
def execReadUe (s : State) : Host.Outcome State Fault Refusal :=
  rdPreamble (State.workRd (.zeros .unsigned 0)) s

/-- `read_se()` (R115). -/
def execReadSe (s : State) : Host.Outcome State Fault Refusal :=
  rdPreamble (State.workRd (.zeros .signed 0)) s

/-- `rd_reset()` (R116). -/
def execRdReset (s : State) : Host.Outcome State Fault Refusal :=
  rdUnlessBusy (fun s => (s.resetUnit .rd).respond .ok 0 0) s

end Sys2Proof.Machine
end

