-- ==== Sys2Proof/Machine/Scanner.lean ====
section
/-! DEFINITION. The NAL Scanner unit NS (42_nal_scanner.md). -/

namespace Sys2Proof.Machine

/-- `StartCodeAt(i)` in a buffer of `len` bytes (R161): the length of the start code that begins at
`i`, or 0. Each pattern test checks the bound first. -/
def startCodeAt (m : Memory) (len i : Nat) : Nat :=
  if i + 4 ≤ len ∧ m.read i = 0x00 ∧ m.read (i + 1) = 0x00 ∧ m.read (i + 2) = 0x00
      ∧ m.read (i + 3) = 0x01 then 4
  else if i + 3 ≤ len ∧ m.read i = 0x00 ∧ m.read (i + 1) = 0x00 ∧ m.read (i + 2) = 0x01 then 3
  else 0

/-- The first of the `left` offsets from `i` on at which a start code begins, with the code's
length (R161, R163). -/
def findStartCode (m : Memory) (len : Nat) : (left i : Nat) → Option (Nat × Nat)
  | 0, _ => none
  | left + 1, i =>
    if startCodeAt m len i = 0 then findStartCode m len left (i + 1)
    else some (i, startCodeAt m len i)

/-- `ns_init(len)` (R162): the buffer as the host has placed it is the instance's from here on
(R57). The length and the position written before the prefix check fails are
among the registers a fault leaves unspecified (R40). -/
def State.beginScan (len : Word) (s : State) : State :=
  let s := { s with
    ns := { s.ns with len := len, pos := 0, fault := 0x00 }
    scanBuf := s.buf }
  let c := startCodeAt s.scanBuf len.toNat 0
  if c = 0 then s.raise .ns .badStartCode 0
  else
    State.respond .ok 0 0
      { s with ns := { s.ns with pos := BitVec.ofNat 32 c, st := .ready } }

/-- `ns_next()` while `NS.st = READY` (R163). -/
def State.nextUnit (s : State) : State :=
  let start := s.ns.pos
  let len := s.ns.len
  if start = len then
    State.respond .endOfUnits 0 0 { s with ns := { s.ns with st := .done } }
  else
    match findStartCode s.scanBuf len.toNat (len.toNat - start.toNat) start.toNat with
    | some (i, c) =>
      State.respond .ok start (BitVec.ofNat 32 i)
        { s with ns := { s.ns with pos := BitVec.ofNat 32 (i + c) } }
    | none => State.respond .ok start len { s with ns := { s.ns with pos := len } }

/-- `ns_init(len)` (R162): accepted in every state (R160). -/
def execNsInit (len : Word) (s : State) : Host.Outcome State Fault Refusal :=
  .next (s.beginScan len)

/-- `ns_next()` (R163). -/
def execNsNext (s : State) : Host.Outcome State Fault Refusal :=
  nsPreamble State.nextUnit s

/-- `ns_reset()` (R164): accepted in every state (R160). -/
def execNsReset (s : State) : Host.Outcome State Fault Refusal :=
  .next ((s.resetUnit .ns).respond .ok 0 0)

end Sys2Proof.Machine
end

