-- ==== Sys2Proof/Machine/Writer.lean ====
section
/-! DEFINITION. The Bit Writer unit WR (41_bit_writer.md). -/

namespace Sys2Proof.Machine

/-- What a piece of WR work comes to: it completes; it faults, which leaves the data registers
unspecified and so carries only the sink (R40, R191); or it waits for the sink, with what is still to
do (R74). -/
inductive WrRun where
  | done (wr : Wr) (snk : Sink)
  | raised (cause : Status) (info : Word) (snk : Sink)
  | waits (job : WrJob) (wr : Wr) (snk : Sink)
  deriving DecidableEq, Repr

/-- `WR.acc` and `WR.pos` of an empty partial byte (R130). -/
def Wr.emptied (wr : Wr) : Wr := { wr with acc := 0x00, pos := 0 }

/-- Push a byte in a WR command; when it is accepted the partial byte is empty. -/
def pushAndEmpty (job : WrJob) (b : Byte) (wr : Wr) (snk : Sink) : WrRun :=
  match snk.push b with
  | .accepted snk' => .done wr.emptied snk'
  | .failed cause snk' => .raised cause 0 snk'
  | .withheld snk' => .waits job wr snk'

/-- `WR.acc` with bit `b` placed at the current position (R130). -/
def Wr.placeBit (wr : Wr) (b : Bool) : Byte :=
  wr.acc ||| ((BitVec.ofBool b).setWidth 8 <<< (7 - wr.pos.val))

/-- `WriteBit(b)` (R130). `job` is what the command has still to do if the sink withholds its
answer. -/
def writeBit (job : WrJob) (b : Bool) (wr : Wr) (snk : Sink) : WrRun :=
  if wr.pos = 7 then pushAndEmpty job (wr.placeBit b) wr snk
  else .done { wr with acc := wr.placeBit b, pos := wr.pos + 1 } snk

/-- `WriteBit` of each bit in turn. `WriteNBits(n, v)` is this of `fieldBits n v` (R136). -/
def writeBits : List Bool → Wr → Sink → WrRun
  | [], wr, snk => .done wr snk
  | b :: rest, wr, snk =>
    match writeBit (.bits (b :: rest)) b wr snk with
    | .done wr' snk' => writeBits rest wr' snk'
    | .raised cause info snk' => .raised cause info snk'
    | .waits job wr' snk' => .waits job wr' snk'

/-- `flush` (R139): nothing when no bit is pending, else the partial byte, whose unwritten low bits
are zero (R33). -/
def flushBits (wr : Wr) (snk : Sink) : WrRun :=
  if wr.pos = 0 then .done wr snk else pushAndEmpty .flush wr.acc wr snk

/-- One WR command, from the start or from where it waited. -/
def runWr (job : WrJob) (wr : Wr) (snk : Sink) : WrRun :=
  match job with
  | .bits rest => writeBits rest wr snk
  | .byte v => pushAndEmpty (.byte v) v wr.emptied snk
  | .flush => flushBits wr snk

/-- What a piece of WR work does to the state: it answers `OK` (R94), raises its fault (R190), or
waits without an answer (R74). -/
def State.endWr (run : WrRun) (s : State) : State :=
  match run with
  | .done wr snk => State.respond .ok 0 0 { s with wr := wr, sink := snk, wrJob := none }
  | .raised cause info snk => State.raise .wr cause info { s with sink := snk, wrJob := none }
  | .waits job wr snk => { s with wr := wr, sink := snk, wrJob := some job }

/-- Run one WR command to its answer or to its next wait. -/
def State.workWr (job : WrJob) (s : State) : State := s.endWr (runWr job s.wr s.sink)

/-- The sink answers a push it had withheld an answer to: the waiting command goes on from there
(R74). Nothing happens when no WR command waits. -/
def State.resumeWr (s : State) : State :=
  match s.wrJob with
  | none => s
  | some job => s.workWr job

/-- Write the code of `code` unless it is above `UE_MAX`; `info` is the operand as it came
(R137, R138). -/
def State.writeCode (code : Nat) (info : Word) (s : State) : State :=
  if code > ueMax s.params then s.raise .wr .valueRange info
  else s.workWr (.bits (codeBits code))

/-- `write_bit(b)` (R132). -/
def execWriteBit (b : BitVec 1) (s : State) : Host.Outcome State Fault Refusal :=
  wrPreamble (State.workWr (.bits [b.getLsbD 0])) s

/-- `write_bool(b)` (R133). -/
def execWriteBool (b : Bool) (s : State) : Host.Outcome State Fault Refusal :=
  wrPreamble (State.workWr (.bits [b])) s

/-- `write_byte(v)` (R134). -/
def execWriteByte (v : Byte) (s : State) : Host.Outcome State Fault Refusal :=
  wrPreamble (State.workWr (.byte v)) s

/-- `write_n_bits(n, value)` (R135). -/
def execWriteNBits (n : BitVec 8) (value : Word) (s : State) : Host.Outcome State Fault Refusal :=
  wrPreamble (fun s =>
    if n.toNat > nMax then s.raise .wr .badWidth (n.setWidth 32)
    else s.workWr (.bits (fieldBits n.toNat value.toNat))) s

/-- `write_ue(value)` (R137). -/
def execWriteUe (value : Word) (s : State) : Host.Outcome State Fault Refusal :=
  wrPreamble (State.writeCode value.toNat value) s

/-- `write_se(value)` (R138). -/
def execWriteSe (value : Word) (s : State) : Host.Outcome State Fault Refusal :=
  wrPreamble (State.writeCode (signedToCode value.toInt) value) s

/-- `flush()` (R139). -/
def execFlush (s : State) : Host.Outcome State Fault Refusal :=
  wrPreamble (State.workWr .flush) s

/-- `wr_reset()` (R140). -/
def execWrReset (s : State) : Host.Outcome State Fault Refusal :=
  wrUnlessBusy (fun s => (s.resetUnit .wr).respond .ok 0 0) s

end Sys2Proof.Machine
end

