-- ==== Sys2Proof/Machine/Dispatch.lean ====
section
/-! DEFINITION. One arm per command, each one call of its meaning. -/

namespace Sys2Proof.Machine

def exec (i : Instr) (s : State) : Host.Outcome State Fault Refusal :=
  match i with
  | .readBit => Sys2Proof.Machine.execReadBit s
  | .readByte => Sys2Proof.Machine.execReadByte s
  | .readExpGolombCode => Sys2Proof.Machine.execReadExpGolombCode s
  | .readUe => Sys2Proof.Machine.execReadUe s
  | .readSe => Sys2Proof.Machine.execReadSe s
  | .rdReset => Sys2Proof.Machine.execRdReset s
  | .writeBit b => Sys2Proof.Machine.execWriteBit b s
  | .writeBool b => Sys2Proof.Machine.execWriteBool b s
  | .writeByte v => Sys2Proof.Machine.execWriteByte v s
  | .writeNBits n value => Sys2Proof.Machine.execWriteNBits n value s
  | .writeUe value => Sys2Proof.Machine.execWriteUe value s
  | .writeSe value => Sys2Proof.Machine.execWriteSe value s
  | .flush => Sys2Proof.Machine.execFlush s
  | .wrReset => Sys2Proof.Machine.execWrReset s
  | .nsInit len => Sys2Proof.Machine.execNsInit len s
  | .nsNext => Sys2Proof.Machine.execNsNext s
  | .nsReset => Sys2Proof.Machine.execNsReset s

end Sys2Proof.Machine
end

