-- ==== Sys2Proof/Machine/Port.lean ====
section
/-! DEFINITION. The host port (R91): what each input does. -/

namespace Sys2Proof.Machine

/-- The unit a command addresses (R92: `op[7:4]`). -/
def unitOf : Instr → EgbUnit
  | .readBit | .readByte | .readExpGolombCode | .readUe | .readSe | .rdReset => .rd
  | .writeBit _ | .writeBool _ | .writeByte _ | .writeNBits _ _ | .writeUe _ | .writeSe _
  | .flush | .wrReset => .wr
  | .nsInit _ | .nsNext | .nsReset => .ns

/-- A word that is not a command (R96): answered with its opcode, no state of any unit read or
changed. -/
def State.answerIllegal (w : Command) (s : State) : State :=
  s.respond .illegalCmd (byteWord (opField w)) 0

/-- A command word: an illegal one is answered before any unit is consulted (R195), a command is
executed. -/
def takeCommand (w : Command) (s : State) : Host.Outcome State Fault Refusal :=
  match decode w with
  | .instr i => exec i s
  | .illegal _ => .next (s.answerIllegal w)

/-- The reset command of a unit (R221). -/
def resetOf : EgbUnit → Instr
  | .rd => .rdReset
  | .wr => .wrReset
  | .ns => .nsReset

/-- The input begins a new instance of the unit: hardware reset or the unit's reset command
(R223, R224). -/
def beginsInstance (u : EgbUnit) : Input → Bool
  | .hardwareReset => true
  | .command w => decide (decode w = .instr (resetOf u))
  | .bindSource _ | .bindSink _ | .placeBuffer _ | .sourceAnswers | .sinkAnswers => false

/-- The unit does not act on the input: it is no command of the unit, no reset, and no answer that
the unit waits for. -/
def leavesUnit (u : EgbUnit) : Input → Bool
  | .command w =>
    match decode w with
    | .instr i => decide (unitOf i ≠ u)
    | .illegal _ => true
  | .hardwareReset => false
  | .sourceAnswers => decide (u ≠ .rd)
  | .sinkAnswers => decide (u ≠ .wr)
  | .bindSource _ | .bindSink _ | .placeBuffer _ => true

/-- A new instance of the unit is begun by an input already presented, before any other input on
which the unit acts: the old instance is over (R223, R224: a stream is bound and the unit reset in
either order). -/
def resetFirst (u : EgbUnit) : List Input → Bool
  | [] => false
  | input :: rest => beginsInstance u input || (leavesUnit u input && resetFirst u rest)

/-- The source may be bound (R223, R226): RD stands at its reset values, or has faulted and can do
nothing but be reset, or is reset before it is used again. -/
def sourceFree (s : State) : Bool :=
  (s.rdJob.isNone && (decide (s.rd = Rd.reset) || decide (s.rd.st = .fault)))
    || resetFirst .rd s.inputs

/-- The sink may be bound (R224, R226). -/
def sinkFree (s : State) : Bool :=
  (s.wrJob.isNone && (decide (s.wr = Wr.reset) || decide (s.wr.st = .fault)))
    || resetFirst .wr s.inputs

/-- The host places a byte stream in the scanner buffer, from offset 0 (R225), which it may not do
during a scan (R57, R232). The buffer of a scan that has ended stays that scan's (R34). -/
def placeBuffer (bytes : List Byte) (s : State) : Host.Outcome State Fault Refusal :=
  if s.ns.st = .ready then .refused .bufferInUse
  else if bytes.length > bufferSpace then .fault .bufferOffsetOutside
  else .next { s with buf := s.buf.place 0 bytes }

/-- What one input does; `s` no longer lists it. -/
def takeInput (input : Input) (s : State) : Host.Outcome State Fault Refusal :=
  match input with
  | .command w => takeCommand w s
  | .hardwareReset => .next s.hardwareReset
  | .bindSource source =>
    if sourceFree s then .next { s with source := source } else .refused .sourceInUse
  | .bindSink sink => if sinkFree s then .next { s with sink := sink } else .refused .sinkInUse
  | .placeBuffer bytes => placeBuffer bytes s
  | .sourceAnswers => .next s.resumeRd
  | .sinkAnswers => .next s.resumeWr

/-- The command word of a table row, presented as the next input. -/
def presentWord (nbits w : Nat) (s : State) : State :=
  { s with inputs := .command (tableWord nbits w) :: s.inputs }

end Sys2Proof.Machine
end

