-- ==== Sys2Proof/Machine/Step.lean ====
section
/-! DEFINITION. One step: the oldest input not yet taken has its effect; with none, the block is
idle and holds its registers (R199). -/

namespace Sys2Proof.Machine

def step (s : State) : Host.Outcome State Fault Refusal :=
  match s.inputs with
  | [] => .next s
  | input :: rest => takeInput input { s with inputs := rest }

/-- The state with one command word presented before every other input: the very next step takes it.
EGB fetches nothing (R28, R72): the host presents each word (log entry 3). -/
def State.withFetchWord (s : State) (nbits w : Nat) : State := presentWord nbits w s

end Sys2Proof.Machine
end

