-- ==== Sys2Proof/Safety.lean ====
section
/-! DEFINITION. What claims are stated in: the bits RD has still to deliver and the bits WR has
written, an environment that answers without failing, the invariants of the registers, and what a
fault leaves. -/

namespace Sys2Proof.Machine

/-! ### Streams as bits -/

/-- The bits RD has still to deliver (R35, R118): those of `RD.cur` from bit `7 - RD.off` down, then
those of the bytes not yet pulled. -/
def State.bitsAhead (s : State) : List Bool :=
  (byteBits s.rd.cur).drop s.rd.off.val ++ bytesBits (s.source.bytes.drop s.source.idx)

/-- The bits WR has written (R36, R141): those of the sink, then the `WR.pos` pending ones. -/
def State.bitsOut (s : State) : List Bool :=
  bytesBits s.sink.bytes ++ (byteBits s.wr.acc).take s.wr.pos.val

/-! ### The environment -/

/-- The source's next answer is to deliver (R52 outcomes 1 and 2). -/
abbrev Source.NextDelivers (src : Source) : Prop :=
  src.answers.head? = none ∨ src.answers.head? = some .deliver

/-- Every answer of the source is to deliver: it neither fails nor withholds (93 U6). -/
abbrev Source.AlwaysDelivers (src : Source) : Prop := ∀ a ∈ src.answers, a = .deliver

/-- The source once it has given its next answer and delivered a byte. -/
def Source.advanced (src : Source) : Source :=
  { src with idx := src.idx + 1, answers := src.answers.tail }

/-- The source once it has given its next answer and delivered nothing. -/
def Source.answered (src : Source) : Source := { src with answers := src.answers.tail }

/-- The sink's next answer is to accept (R55 outcome 1). -/
abbrev Sink.NextAccepts (snk : Sink) : Prop :=
  snk.answers.head? = none ∨ snk.answers.head? = some .accept

/-- Every answer of the sink is to accept: it neither fails nor withholds (93 U6). -/
abbrev Sink.AlwaysAccepts (snk : Sink) : Prop := ∀ a ∈ snk.answers, a = .accept

/-- The sink once it has given its next answer and taken nothing. -/
def Sink.answered (snk : Sink) : Sink := { snk with answers := snk.answers.tail }

/-- The sink once it has given its next answer and accepted a byte. -/
def Sink.appended (snk : Sink) (b : Byte) : Sink :=
  { bytes := snk.bytes ++ [b], answers := snk.answers.tail }

/-! ### Units that may take a command -/

/-- RD is ready and no RD command is outstanding. -/
abbrev State.RdReady (s : State) : Prop := s.rd.st = .ready ∧ s.rdJob = none

/-- WR is ready and no WR command is outstanding. -/
abbrev State.WrReady (s : State) : Prop := s.wr.st = .ready ∧ s.wrJob = none

/-! ### Responses -/

/-- The responses after one more. -/
def State.plus (s : State) (status : Byte) (r0 r1 : Word) : List Response :=
  s.responses ++ [{ status := status, r0 := r0, r1 := r1 }]

/-- Every status code of R95. -/
def statusCodes : List Byte :=
  [0x00, 0x01, 0x10, 0x11, 0x12, 0x20, 0x30, 0x31, 0x32, 0x40, 0x41, 0x7F]

/-! ### What the units leave alone -/

/-- Everything that is neither RD's nor its source's nor the list of responses is as before. -/
abbrev OnlyRd (s t : State) : Prop :=
  t.params = s.params ∧ t.wr = s.wr ∧ t.ns = s.ns ∧ t.wrJob = s.wrJob ∧ t.sink = s.sink
    ∧ t.buf = s.buf ∧ t.scanBuf = s.scanBuf ∧ t.inputs = s.inputs

/-- Everything that is neither WR's nor its sink's nor the list of responses is as before. -/
abbrev OnlyWr (s t : State) : Prop :=
  t.params = s.params ∧ t.rd = s.rd ∧ t.ns = s.ns ∧ t.rdJob = s.rdJob ∧ t.source = s.source
    ∧ t.buf = s.buf ∧ t.scanBuf = s.scanBuf ∧ t.inputs = s.inputs

/-- Everything that is neither NS's nor the list of responses is as before. The buffer of NS's instance
is NS's: `ns_init` takes it. -/
abbrev OnlyNs (s t : State) : Prop :=
  t.params = s.params ∧ t.rd = s.rd ∧ t.wr = s.wr ∧ t.rdJob = s.rdJob ∧ t.wrJob = s.wrJob
    ∧ t.source = s.source ∧ t.sink = s.sink ∧ t.buf = s.buf ∧ t.inputs = s.inputs

/-! ### What the bit-level WR commands write -/

/-- `bits` is what the bit-level command `i` writes (R132, R133, R135, R137, R138); no other command
writes bits, and none does with an operand outside its domain. -/
abbrev WritesBits (p : Params) (i : Instr) (bits : List Bool) : Prop :=
  match i with
  | .writeBit b => bits = [b.getLsbD 0]
  | .writeBool b => bits = [b]
  | .writeNBits n value => n.toNat ≤ 32
      ∧ bits = (List.range n.toNat).map (fun k => value.getLsbD (n.toNat - 1 - k))
  | .writeUe value => value.toNat ≤ ueMax p ∧ bits = codeBits value.toNat
  | .writeSe value => signedToCode value.toInt ≤ ueMax p ∧ bits = codeBits (signedToCode value.toInt)
  | .readBit | .readByte | .readExpGolombCode | .readUe | .readSe | .rdReset | .writeByte _
  | .flush | .wrReset | .nsInit _ | .nsNext | .nsReset => False

/-! ### Faults -/

/-- `t` is `s` after a fault of RD (R190): nothing is said of `RD.cur` and `RD.off` (R40) nor of how
far the source has been read (R191). -/
abbrev RdFaulted (s t : State) (cause : Byte) (info : Word) : Prop :=
  t.rd.st = .fault ∧ t.rd.fault = cause ∧ t.responses = s.plus cause info 0
    ∧ t.rdJob = none ∧ OnlyRd s t

/-- `t` is `s` after a fault of WR (R190): nothing is said of `WR.acc` and `WR.pos` (R40) nor of what
the sink has received (R191). -/
abbrev WrFaulted (s t : State) (cause : Byte) (info : Word) : Prop :=
  t.wr.st = .fault ∧ t.wr.fault = cause ∧ t.responses = s.plus cause info 0
    ∧ t.wrJob = none ∧ OnlyWr s t

/-- `t` is `s` after a fault of NS (R190): nothing is said of `NS.len` and `NS.pos` (R40). -/
abbrev NsFaulted (s t : State) (cause : Byte) (info : Word) : Prop :=
  t.ns.st = .fault ∧ t.ns.fault = cause ∧ t.responses = s.plus cause info 0 ∧ OnlyNs s t

/-! ### Invariants -/

/-- R32 and R30 for RD: while it is ready some bit count from 1 to 8 is in `RD.off` and no cause is
recorded; while it has faulted the cause is one RD has (R181). -/
abbrev Rd.Inv (rd : Rd) : Prop :=
  (rd.st = .ready → rd.off ≠ 0 ∧ rd.fault = 0x00)
    ∧ (rd.st = .fault → rd.fault ∈ [0x10, 0x11, 0x30])

/-- R33 and R30 for WR: while it is ready the bits of `WR.acc` not yet written are zero and no cause
is recorded; while it has faulted the cause is one WR has (R181). -/
abbrev Wr.Inv (wr : Wr) : Prop :=
  (wr.st = .ready → wr.acc.toNat % 2 ^ (8 - wr.pos.val) = 0 ∧ wr.fault = 0x00)
    ∧ (wr.st = .fault → wr.fault ∈ [0x12, 0x31, 0x32])

/-- R34 and R30 for NS and the buffer `m` of its instance. -/
abbrev Ns.Inv (ns : Ns) (m : Memory) : Prop :=
  (ns.st = .ready ∨ ns.st = .done →
      3 ≤ ns.pos.toNat ∧ ns.pos.toNat ≤ ns.len.toNat ∧ startCodeAt m ns.len.toNat 0 ≠ 0)
    ∧ (ns.st = .done → ns.pos = ns.len)
    ∧ (ns.st ≠ .fault → ns.fault = 0x00)
    ∧ (ns.st = .fault → ns.fault = 0x20)

/-- An RD command that waits does so for a refill, part-way through a code of the domain (R113). -/
abbrev RdJob.Inv (p : Params) (job : RdJob) : Prop :=
  match job with
  | .bit | .byte => True
  | .zeros _ k => k ≤ p.kMax
  | .suffix _ k left got => k ≤ p.kMax ∧ 1 ≤ left ∧ left ≤ k ∧ got < 2 ^ (k - left)

/-- A WR command that waits does so for a push. -/
abbrev WrJob.Inv (wr : Wr) (job : WrJob) : Prop :=
  match job with
  | .bits rest => rest ≠ [] ∧ wr.pos = 7
  | .byte _ => wr.pos = 0
  | .flush => wr.pos ≠ 0

/-- What holds at reset and after every step. -/
structure State.Inv (s : State) : Prop where
  params : s.params.Legal
  rd : s.rd.Inv
  wr : s.wr.Inv
  ns : s.ns.Inv s.scanBuf
  buf : s.buf.wf = true
  scanBuf : s.scanBuf.wf = true
  /-- The host does not change the buffer of a scan (R37, R57). -/
  scan : s.ns.st = .ready → s.scanBuf = s.buf
  rdJob : ∀ job, s.rdJob = some job → s.rd.st = .ready ∧ s.rd.off = 8 ∧ job.Inv s.params
  wrJob : ∀ job, s.wrJob = some job → s.wr.st = .ready ∧ job.Inv s.wr

end Sys2Proof.Machine
end

