-- ==== Sys2Proof/Certificates/Slice0/Obligations.lean ====
section
/-! DEFINITION. The statements for the provers, each about the machine over every state and operand
that meets its hypotheses. The title and the rule of each stand in OBLIGATIONS.json under its name. -/

open Sys2Proof Sys2Proof.Machine

/-! ### Command words -/

/-- Every command, with every value of its operands, is read back from its word (R92, R93). -/
def Obligations.DecodeReadsBackEncode : Prop :=
  ∀ i : Instr, decode (encode i) = .instr i

/-- A command has one word only: no bit of a legal word is dropped (R92, R93). -/
def Obligations.EncodeReadsBackDecode : Prop :=
  ∀ (w : Command) (i : Instr), decode w = .instr i → encode i = w

/-- The decoder accepts the words of the machine-readable opcode table and no others. -/
def Obligations.DecodeAcceptsExactlyTheTable : Prop :=
  ∀ w : Command, wellFormedWord w = true ↔ ∃ i, decode w = .instr i

/-- R96: a word that fits no row of the table is answered with its opcode, in every state of every
unit, and nothing else changes. -/
def Obligations.IllegalWordIsAnsweredAndChangesNothing : Prop :=
  ∀ (s : State) (w : Command) (rest : List Input),
    s.inputs = .command w :: rest → wellFormedWord w = false →
      step s = .next { s with inputs := rest, responses := s.plus 0x7F ((opField w).setWidth 32) 0 }

/-- Words written out from R92 and 95_test_vectors.md decode to the commands they stand for. -/
def Obligations.SampleWordsDecode : Prop :=
  decode 0x010000000000 = .instr .readBit
    ∧ decode 0x0F0000000000 = .instr .rdReset
    ∧ decode 0x110000000001 = .instr (.writeBit 1)
    ∧ decode 0x1300000000AB = .instr (.writeByte 0xAB)
    ∧ decode 0x1405000000FF = .instr (.writeNBits 5 0xFF)
    ∧ decode 0x1600FFFFFFFD = .instr (.writeSe 0xFFFFFFFD)
    ∧ decode 0x21000000000B = .instr (.nsInit 11)
    ∧ decode 0x220000000000 = .instr .nsNext

/-! ### The port -/

/-- A step runs the decoded command: with a command word as the oldest input, `step` is `exec` of
the command it decodes to, at the state that no longer lists that input. -/
def Obligations.StepRunsTheDecodedCommand : Prop :=
  ∀ (s : State) (w : Command) (rest : List Input) (i : Instr),
    s.inputs = .command w :: rest → decode w = .instr i →
      step s = exec i { s with inputs := rest }

/-- A block with nothing presented is idle and holds its registers (60_exceptions.md section 7). -/
def Obligations.IdleStepHoldsTheState : Prop :=
  ∀ s : State, s.inputs = [] → step s = .next s

/-- Hardware reset puts every register to its reset value, aborts a command in progress without a
response, and leaves the environment alone (70_reset_and_hazards.md section 1). That the inputs not
yet taken and the responses already given survive it is the model's (log entry 15), and so is that a
byte offered to a sink that had not answered is not in the sink (log entry 17). -/
def Obligations.HardwareResetSetsEveryRegister : Prop :=
  ∀ (s : State) (rest : List Input), s.inputs = .hardwareReset :: rest →
    step s = .next { s with
      inputs := rest
      rd := { cur := 0x00, off := 8, st := .ready, fault := 0x00 }
      wr := { acc := 0x00, pos := 0, st := .ready, fault := 0x00 }
      ns := { len := 0, pos := 0, st := .uninit, fault := 0x00 }
      rdJob := none
      wrJob := none }

/-- R38: the reset values, after hardware reset and after the reset command of each unit. -/
def Obligations.ResetValues : Prop :=
  (State.reset.rd = { cur := 0x00, off := 8, st := .ready, fault := 0x00 }
    ∧ State.reset.wr = { acc := 0x00, pos := 0, st := .ready, fault := 0x00 }
    ∧ State.reset.ns = { len := 0, pos := 0, st := .uninit, fault := 0x00 })
  ∧ ∀ s t : State,
      (exec .rdReset s = .next t → t.rd = State.reset.rd)
      ∧ (exec .wrReset s = .next t → t.wr = State.reset.wr)
      ∧ (exec .nsReset s = .next t → t.ns = State.reset.ns)
      ∧ (∀ rest, s.inputs = .hardwareReset :: rest → step s = .next t →
        t.rd = State.reset.rd ∧ t.wr = State.reset.wr ∧ t.ns = State.reset.ns)

/-- The host places a byte stream from offset 0 (70_reset_and_hazards.md section 2): when no scan is
going on, every byte placed is read back at its offset and every other offset reads as before. -/
def Obligations.PlacedBytesAreReadBack : Prop :=
  ∀ (s : State) (bytes : List Byte) (rest : List Input),
    s.inputs = .placeBuffer bytes :: rest → s.buf.wf = true → s.ns.st ≠ .ready →
    bytes.length ≤ 2 ^ 32 →
      ∃ m : Memory, step s = .next { s with inputs := rest, buf := m }
        ∧ (∀ (a : Nat) (b : Byte), bytes[a]? = some b → m.read a = b)
        ∧ (∀ a : Nat, bytes.length ≤ a → m.read a = s.buf.read a)

/-- A source is bound to RD before the first command of an instance, in either order with RD's reset
(70_reset_and_hazards.md section 2): at RD's reset values, after a fault, which only a reset leaves,
and before a reset already presented, as long as RD acts on nothing between; likewise a sink to WR.
Nothing but the stream changes. That inputs stand in a list, and that any other binding is refused,
is the model's (log entries 3, 9). -/
def Obligations.BindingAtReset : Prop :=
  ∀ (s : State) (rest : List Input),
    (∀ src : Source, s.inputs = .bindSource src :: rest →
      (s.rd = Rd.reset ∧ s.rdJob = none) ∨ (s.rd.st = .fault ∧ s.rdJob = none)
        ∨ (∃ before reset later, rest = before ++ reset :: later
          ∧ (∀ x ∈ before, leavesUnit .rd x = true)
          ∧ (reset = .hardwareReset ∨ reset = .command (encode .rdReset))) →
      step s = .next { s with inputs := rest, source := src })
    ∧ (∀ snk : Sink, s.inputs = .bindSink snk :: rest →
      (s.wr = Wr.reset ∧ s.wrJob = none) ∨ (s.wr.st = .fault ∧ s.wrJob = none)
        ∨ (∃ before reset later, rest = before ++ reset :: later
          ∧ (∀ x ∈ before, leavesUnit .wr x = true)
          ∧ (reset = .hardwareReset ∨ reset = .command (encode .wrReset))) →
      step s = .next { s with inputs := rest, sink := snk })

/-! ### RD: one bit, one byte -/

/-- The next bit of the stream; a refill only at `RD.off = 8`; the faults of the refill; no fault
otherwise (40_bit_reader.md section 2, `read_bit`). That a refill which delivers nothing leaves the
source's position and uses up one answer is the model's (log entry 8). -/
def Obligations.ReadBitDeliversTheNextBit : Prop :=
  decode 0x010000000000 = .instr .readBit
  ∧ ∀ s : State, s.RdReady →
    (s.rd.off ≠ 8 →
      exec .readBit s = .next { s with
        rd := { s.rd with off := s.rd.off + 1 }
        responses := s.plus 0x00 (if s.rd.cur.getLsbD (7 - s.rd.off.val) then 1 else 0) 0 })
    ∧ (∀ b : Byte, s.rd.off = 8 → s.source.NextDelivers →
        s.source.bytes[s.source.idx]? = some b →
      exec .readBit s = .next { s with
        rd := { s.rd with cur := b, off := 1 }
        source := s.source.advanced
        responses := s.plus 0x00 (if b.getLsbD 7 then 1 else 0) 0 })
    ∧ (s.rd.off = 8 → s.source.NextDelivers → s.source.bytes[s.source.idx]? = none →
      ∃ t, exec .readBit s = .next t ∧ RdFaulted s t 0x10 0 ∧ t.source = s.source.answered)
    ∧ (s.rd.off = 8 → s.source.answers.head? = some .fail →
      ∃ t, exec .readBit s = .next t ∧ RdFaulted s t 0x11 0 ∧ t.source = s.source.answered)

/-- The next whole byte of the source at any `RD.off`, the unread bits gone, the byte not passing
through `RD.cur`; the faults of the pull (40_bit_reader.md section 2, `read_byte`). That a pull which
delivers nothing leaves the source's position and uses up one answer is the model's (log entry 8);
that a misaligned `read_byte` discards is the spec's choice between two readings of its document
(90_conflicts.md C1; log entry 10). -/
def Obligations.ReadByteDeliversTheNextByte : Prop :=
  decode 0x020000000000 = .instr .readByte
  ∧ ∀ s : State, s.RdReady →
    (∀ b : Byte, s.source.NextDelivers → s.source.bytes[s.source.idx]? = some b →
      exec .readByte s = .next { s with
        rd := { s.rd with off := 8 }
        source := s.source.advanced
        responses := s.plus 0x00 (b.setWidth 32) 0 })
    ∧ (s.source.NextDelivers → s.source.bytes[s.source.idx]? = none →
      ∃ t, exec .readByte s = .next t ∧ RdFaulted s t 0x10 0 ∧ t.source = s.source.answered)
    ∧ (s.source.answers.head? = some .fail →
      ∃ t, exec .readByte s = .next t ∧ RdFaulted s t 0x11 0 ∧ t.source = s.source.answered)

/-! ### RD: codes -/

/-- `read_exp_golomb_code` and `read_ue` complete on the code of every value of the domain, at every
bit offset: they return the value and consume exactly the code's `2k + 1` bits (R82, R113, R114). -/
def Obligations.ReadUeReturnsTheCodedValue : Prop :=
  ∀ (s : State) (i : Instr) (k suffix : Nat) (rest : List Bool),
    i ∈ [Instr.readExpGolombCode, Instr.readUe] →
    s.params.Legal → s.RdReady → s.source.AlwaysDelivers →
    k ≤ s.params.kMax → suffix < 2 ^ k →
    s.bitsAhead = List.replicate k false ++ true
        :: ((List.range k).map (fun j => suffix.testBit (k - 1 - j)) ++ rest) →
      ∃ t, exec i s = .next t
        ∧ t.responses = s.plus 0x00 (BitVec.ofNat 32 (suffix + 2 ^ k - 1)) 0
        ∧ t.bitsAhead = rest
        ∧ t.rd.st = .ready ∧ t.rd.fault = s.rd.fault ∧ t.rdJob = none
        ∧ t.source.bytes = s.source.bytes ∧ t.source.AlwaysDelivers ∧ OnlyRd s t

/-- `read_se` completes on the code of every signed value of the domain, at every bit offset, and
returns it in 32-bit two's complement (R86, R115). -/
def Obligations.ReadSeReturnsTheSignedValue : Prop :=
  ∀ (s : State) (x : Int) (c : Nat) (rest : List Bool),
    s.params.Legal → s.RdReady → s.source.AlwaysDelivers →
    -((seMax s.params : Nat) : Int) ≤ x → x ≤ ((seMax s.params : Nat) : Int) →
    (c : Int) = (if x > 0 then 2 * x - 1 else -2 * x) →
    s.bitsAhead = codeBits c ++ rest →
      ∃ t, exec .readSe s = .next t
        ∧ t.responses = s.plus 0x00 (BitVec.ofInt 32 x) 0
        ∧ t.bitsAhead = rest
        ∧ t.rd.st = .ready ∧ t.rd.fault = s.rd.fault ∧ t.rdJob = none
        ∧ t.source.bytes = s.source.bytes ∧ t.source.AlwaysDelivers ∧ OnlyRd s t

/-- A code whose prefix is longer than `K_MAX` is refused at the earliest bit that proves it: after
`K_MAX + 1` zero bits and before another byte is pulled (R113; decision D8). -/
def Obligations.LongPrefixFaultsAtTheEarliestBit : Prop :=
  ∀ (s : State) (i : Instr) (rest : List Bool),
    i ∈ [Instr.readExpGolombCode, Instr.readUe, Instr.readSe] →
    s.RdReady → s.source.AlwaysDelivers →
    s.bitsAhead = List.replicate (s.params.kMax + 1) false ++ rest →
      ∃ t, exec i s = .next t
        ∧ RdFaulted s t 0x30 (BitVec.ofNat 32 (s.params.kMax + 1))
        ∧ t.source.bytes = s.source.bytes
        ∧ t.source.idx = s.source.idx + (s.params.kMax + 1 - (8 - s.rd.off.val) + 7) / 8

/-- A stream that ends inside a code, in its prefix or in its suffix, faults with `SRC_UNDERRUN`
once every byte is consumed, and no value is returned (R113, R182). -/
def Obligations.TruncatedCodeFaultsWithUnderrun : Prop :=
  ∀ (s : State) (i : Instr) (v n : Nat),
    i ∈ [Instr.readExpGolombCode, Instr.readUe, Instr.readSe] →
    s.RdReady → s.source.AlwaysDelivers → s.source.idx ≤ s.source.bytes.length →
    v ≤ ueMax s.params → n < (codeBits v).length → s.bitsAhead = (codeBits v).take n →
      ∃ t, exec i s = .next t ∧ RdFaulted s t 0x10 0
        ∧ t.source.bytes = s.source.bytes ∧ t.source.idx = s.source.bytes.length

/-- R114: `read_ue` is `read_exp_golomb_code` under another opcode. -/
def Obligations.ReadUeIsReadExpGolombCode : Prop :=
  decode 0x040000000000 = .instr .readUe
  ∧ ∀ s : State, exec .readUe s = exec .readExpGolombCode s

/-! ### RD: refusals, reset, frame -/

/-- R117: the preamble. A faulted RD refuses every command but its reset and nothing changes; a
ready RD runs the command's own work. -/
def Obligations.RdPreambleRefusesWhenFaulted : Prop :=
  ∀ (s : State) (i : Instr) (job : RdJob),
    (i, job) ∈ [(Instr.readBit, RdJob.bit), (.readByte, .byte),
      (.readExpGolombCode, .zeros .unsigned 0), (.readUe, .zeros .unsigned 0),
      (.readSe, .zeros .signed 0)] →
    s.rdJob = none →
      (s.rd.st = .fault →
        exec i s = .next { s with responses := s.plus 0x40 (s.rd.fault.setWidth 32) 0 })
      ∧ (s.rd.st = .ready → exec i s = .next (s.workRd job))

/-- R116: `rd_reset` is accepted in every state of RD, faulted or not, and touches nothing but RD's
registers; no other command leaves RD's fault. -/
def Obligations.RdResetIsAlwaysAccepted : Prop :=
  decode 0x0F0000000000 = .instr .rdReset
  ∧ (∀ s : State, s.rdJob = none →
    exec .rdReset s = .next { s with
      rd := { cur := 0x00, off := 8, st := .ready, fault := 0x00 }
      responses := s.plus 0x00 0 0 })
  ∧ ∀ (s t : State) (i : Instr),
    s.rd.st = .fault → exec i s = .next t → t.rd.st ≠ .fault → i = .rdReset

/-- Frame of the RD commands: WR, NS, the sink, the scanner buffer and the inputs are as before;
every byte of the buffer reads as before; the source's bytes are as before and its position does not
go back; at most one response is given (10_state.md section 6, 20_memory.md section 2). -/
def Obligations.RdCommandsFrame : Prop :=
  ∀ (s t : State) (i : Instr),
    i ∈ [Instr.readBit, .readByte, .readExpGolombCode, .readUe, .readSe, .rdReset] →
    exec i s = .next t →
      OnlyRd s t ∧ (∀ a : Nat, t.buf.read a = s.buf.read a)
        ∧ t.source.bytes = s.source.bytes ∧ s.source.idx ≤ t.source.idx
        ∧ (t.responses = s.responses ∨ ∃ r, t.responses = s.responses ++ [r])

/-- A code read makes at most 8 pulls (70_reset_and_hazards.md section 4). -/
def Obligations.CodeReadMakesAtMostEightPulls : Prop :=
  ∀ (s t : State) (i : Instr),
    i ∈ [Instr.readExpGolombCode, Instr.readUe, Instr.readSe] → s.params.Legal →
    exec i s = .next t → t.source.idx ≤ s.source.idx + 8

/-! ### RD and WR: a withheld answer -/

/-- A stall is not a fault (20_memory.md section 9, 60_exceptions.md section 6). A pull or push that
is withheld an answer makes its command wait: with no bit pulled or pushed before, and, for code reads
and bit-level writes, after any number `j` of answered pulls or pushes. A command that waits gives no
response and sets no status register; in every state in which a command of a unit waits, every command
of that unit is refused, its reset among them. That a waiting command is parked (log entry 11), that
the withheld pull or push leaves the stream (log entries 8, 17), and that the model refuses a command
by name (log entry 9) is the model's. -/
def Obligations.StalledCommandGivesNoResponse : Prop :=
  (∀ s : State, s.RdReady → s.source.answers.head? = some .withhold →
    (s.rd.off = 8 →
      exec .readBit s = .next { s with source := s.source.answered, rdJob := some .bit }
      ∧ exec .readExpGolombCode s
          = .next { s with source := s.source.answered, rdJob := some (.zeros .unsigned 0) }
      ∧ exec .readUe s
          = .next { s with source := s.source.answered, rdJob := some (.zeros .unsigned 0) }
      ∧ exec .readSe s
          = .next { s with source := s.source.answered, rdJob := some (.zeros .signed 0) })
    ∧ exec .readByte s = .next { s with
        rd := { s.rd with off := 8 }, source := s.source.answered, rdJob := some .byte })
  ∧ (∀ (s : State) (i : Instr) (v n j : Nat) (rest : List PullAnswer),
    i ∈ [Instr.readExpGolombCode, Instr.readUe, Instr.readSe] → s.RdReady →
    s.source.answers = List.replicate j .deliver ++ .withhold :: rest →
    s.source.idx + j ≤ s.source.bytes.length → v ≤ ueMax s.params → n < (codeBits v).length →
    (byteBits s.rd.cur).drop s.rd.off.val ++ bytesBits ((s.source.bytes.drop s.source.idx).take j)
        = (codeBits v).take n →
      ∃ t : State, exec i s = .next t ∧ t.rdJob ≠ none
        ∧ t.source = { bytes := s.source.bytes, idx := s.source.idx + j, answers := rest })
  ∧ (∀ s : State, s.WrReady → s.sink.answers.head? = some .withhold →
    (∀ b : Bool, s.wr.pos = 7 →
      exec (.writeBit (BitVec.ofBool b)) s
          = .next { s with sink := s.sink.answered, wrJob := some (.bits [b]) }
      ∧ exec (.writeBool b) s
          = .next { s with sink := s.sink.answered, wrJob := some (.bits [b]) })
    ∧ (∀ v : Byte, exec (.writeByte v) s = .next { s with
        wr := { s.wr with acc := 0x00, pos := 0 }
        sink := s.sink.answered
        wrJob := some (.byte v) })
    ∧ (s.wr.pos ≠ 0 →
      exec .flush s = .next { s with sink := s.sink.answered, wrJob := some .flush }))
  ∧ (∀ (s : State) (i : Instr) (bits : List Bool) (j : Nat) (rest : List PushAnswer),
    WritesBits s.params i bits → s.WrReady → s.wr.Inv →
    s.sink.answers = List.replicate j .accept ++ .withhold :: rest →
    8 * (j + 1) ≤ s.wr.pos.val + bits.length →
      ∃ (t : State) (pushed : List Byte), exec i s = .next t ∧ t.wrJob ≠ none
        ∧ pushed.length = j
        ∧ bytesBits pushed = ((byteBits s.wr.acc).take s.wr.pos.val ++ bits).take (8 * j)
        ∧ t.sink = { bytes := s.sink.bytes ++ pushed, answers := rest })
  ∧ (∀ (s t : State) (i : Instr), exec i s = .next t →
    (unitOf i = .rd → t.rdJob ≠ none →
      t.responses = s.responses ∧ t.rd.st = s.rd.st ∧ t.rd.fault = s.rd.fault ∧ OnlyRd s t)
    ∧ (unitOf i = .wr → t.wrJob ≠ none →
      t.responses = s.responses ∧ t.wr.st = s.wr.st ∧ t.wr.fault = s.wr.fault ∧ OnlyWr s t))
  ∧ ∀ (t : State) (j : Instr),
    (t.rdJob ≠ none → unitOf j = .rd → exec j t = .refused .readerBusy)
    ∧ (t.wrJob ≠ none → unitOf j = .wr → exec j t = .refused .writerBusy)

/-- A stall changes nothing but the moment of the response: when the source answers an RD command that
waited, the step that takes the answer ends in the state the command would have reached had the source
answered at once. That the answer is an input of the port is the model's (log entry 11). -/
def Obligations.AnsweredReadEndsAsIfNeverStalled : Prop :=
  ∀ (s t : State) (i : Instr) (before after : List PullAnswer) (rest : List Input),
    i ∈ [Instr.readBit, .readByte, .readExpGolombCode, .readUe, .readSe] → s.RdReady →
    (∀ a ∈ before, a = .deliver) →
    s.source.answers = before ++ .withhold :: after →
    exec i s = .next t → t.rdJob ≠ none →
      ∃ u, exec i { s with source := { s.source with answers := before ++ after }, inputs := rest }
          = .next u
        ∧ step { t with inputs := .sourceAnswers :: rest } = .next u

/-- The same for a WR command that waited and the step that takes the sink's answer. -/
def Obligations.AnsweredWriteEndsAsIfNeverStalled : Prop :=
  ∀ (s t : State) (i : Instr) (before after : List PushAnswer) (rest : List Input),
    (encodeOp i).toNat ∈ [0x11, 0x12, 0x13, 0x14, 0x15, 0x16, 0x17] → s.WrReady →
    (∀ a ∈ before, a = .accept) →
    s.sink.answers = before ++ .withhold :: after →
    exec i s = .next t → t.wrJob ≠ none →
      ∃ u, exec i { s with sink := { s.sink with answers := before ++ after }, inputs := rest }
          = .next u
        ∧ step { t with inputs := .sinkAnswers :: rest } = .next u

/-! ### WR: one bit, one byte, flush, reset -/

/-- R132 and R133: `write_bit` and `write_bool` place one bit, most significant first, and push the
byte they fill. -/
def Obligations.WriteBitPlacesOneBit : Prop :=
  decode 0x110000000001 = .instr (.writeBit 1) ∧ decode 0x120000000001 = .instr (.writeBool true)
  ∧ ∀ (s : State) (i : Instr) (b : Bool),
    i ∈ [Instr.writeBit (BitVec.ofBool b), Instr.writeBool b] → s.WrReady →
    (s.wr.pos ≠ 7 →
      exec i s = .next { s with
        wr := { s.wr with
          acc := s.wr.acc ||| ((if b then 1 else 0 : Byte) <<< (7 - s.wr.pos.val))
          pos := s.wr.pos + 1 }
        responses := s.plus 0x00 0 0 })
    ∧ (s.wr.pos = 7 → s.sink.NextAccepts →
      exec i s = .next { s with
        wr := { s.wr with acc := 0x00, pos := 0 }
        sink := s.sink.appended (s.wr.acc ||| (if b then 1 else 0 : Byte))
        responses := s.plus 0x00 0 0 })
    ∧ (∀ left : List Byte, s.wr.pos = 7 → s.sink.answers.head? = some (.fail left) →
      ∃ t, exec i s = .next t ∧ WrFaulted s t 0x12 0)

/-- R134: `write_byte` pushes its byte at any `WR.pos`; the pending bits are gone. -/
def Obligations.WriteBytePushesItsByte : Prop :=
  decode 0x1300000000AB = .instr (.writeByte 0xAB)
  ∧ ∀ (s : State) (v : Byte), s.WrReady →
    (s.sink.NextAccepts →
      exec (.writeByte v) s = .next { s with
        wr := { s.wr with acc := 0x00, pos := 0 }
        sink := s.sink.appended v
        responses := s.plus 0x00 0 0 })
    ∧ (∀ left : List Byte, s.sink.answers.head? = some (.fail left) →
      ∃ t, exec (.writeByte v) s = .next t ∧ WrFaulted s t 0x12 0)

/-- R139: `flush` pushes the pending partial byte, and does nothing at all when none is pending. -/
def Obligations.FlushPushesThePendingByte : Prop :=
  decode 0x170000000000 = .instr .flush
  ∧ ∀ s : State, s.WrReady →
    (s.wr.pos = 0 → exec .flush s = .next { s with responses := s.plus 0x00 0 0 })
    ∧ (s.wr.pos ≠ 0 → s.sink.NextAccepts →
      exec .flush s = .next { s with
        wr := { s.wr with acc := 0x00, pos := 0 }
        sink := s.sink.appended s.wr.acc
        responses := s.plus 0x00 0 0 })
    ∧ (∀ left : List Byte, s.wr.pos ≠ 0 → s.sink.answers.head? = some (.fail left) →
      ∃ t, exec .flush s = .next t ∧ WrFaulted s t 0x12 0)

/-- The flushed sink is the bits written, padded with zero bits to a whole number of bytes
(30_encoding.md part A, 41_bit_writer.md section 3). -/
def Obligations.FlushPadsWithZeroBits : Prop :=
  ∀ s : State, s.WrReady → s.wr.Inv → s.sink.AlwaysAccepts →
    ∃ t, exec .flush s = .next t
      ∧ bytesBits t.sink.bytes
          = s.bitsOut ++ List.replicate ((8 - s.wr.pos.val) % 8) false
      ∧ t.wr = { s.wr with acc := 0x00, pos := 0 } ∧ t.responses = s.plus 0x00 0 0
      ∧ t.sink.AlwaysAccepts ∧ t.wrJob = none ∧ OnlyWr s t

/-- R140: `wr_reset` is accepted in every state of WR, faulted or not; the pending bits are gone and
nothing is pushed; no other command leaves WR's fault. -/
def Obligations.WrResetIsAlwaysAccepted : Prop :=
  decode 0x1F0000000000 = .instr .wrReset
  ∧ (∀ s : State, s.wrJob = none →
    exec .wrReset s = .next { s with
      wr := { acc := 0x00, pos := 0, st := .ready, fault := 0x00 }
      responses := s.plus 0x00 0 0 })
  ∧ ∀ (s t : State) (i : Instr),
    s.wr.st = .fault → exec i s = .next t → t.wr.st ≠ .fault → i = .wrReset

/-- R131: the preamble. A faulted WR refuses every command but its reset and nothing changes; a
ready WR runs the command's own work. -/
def Obligations.WrPreambleRefusesWhenFaulted : Prop :=
  ∀ (s : State) (i : Instr) (work : State → State),
    ((∃ b, i = .writeBit b ∧ work = State.workWr (.bits [b.getLsbD 0]))
      ∨ (∃ b, i = .writeBool b ∧ work = State.workWr (.bits [b]))
      ∨ (∃ v, i = .writeByte v ∧ work = State.workWr (.byte v))
      ∨ (∃ n v, i = .writeNBits n v ∧ work = fun s =>
          if n.toNat > 32 then s.raise .wr .badWidth (n.setWidth 32)
          else s.workWr (.bits (fieldBits n.toNat v.toNat)))
      ∨ (∃ v, i = .writeUe v ∧ work = State.writeCode v.toNat v)
      ∨ (∃ v, i = .writeSe v ∧ work = State.writeCode (signedToCode v.toInt) v)
      ∨ (i = .flush ∧ work = State.workWr .flush)) →
    s.wrJob = none →
      (s.wr.st = .fault →
        exec i s = .next { s with responses := s.plus 0x40 (s.wr.fault.setWidth 32) 0 })
      ∧ (s.wr.st = .ready → exec i s = .next (work s))

/-! ### WR: fields and codes -/

/-- `write_n_bits` completes for every `n` up to 32, at every `WR.pos`, and writes the low `n` bits
of its value, most significant first; `n = 0` writes nothing (R81, R135). -/
def Obligations.WriteNBitsWritesTheLowBits : Prop :=
  ∀ (s : State) (n : BitVec 8) (value : Word),
    s.WrReady → s.wr.Inv → s.sink.AlwaysAccepts → n.toNat ≤ 32 →
      ∃ t, exec (.writeNBits n value) s = .next t
        ∧ t.bitsOut
            = s.bitsOut ++ (List.range n.toNat).map (fun j => value.getLsbD (n.toNat - 1 - j))
        ∧ t.wr.st = .ready ∧ t.wr.Inv ∧ t.responses = s.plus 0x00 0 0
        ∧ t.sink.AlwaysAccepts ∧ t.wrJob = none ∧ OnlyWr s t

/-- R188: `write_n_bits` with `n` above 32 faults with its `n`, and no bit is written. -/
def Obligations.WideFieldFaultsBeforeAnyBit : Prop :=
  ∀ (s : State) (n : BitVec 8) (value : Word), s.WrReady → 32 < n.toNat →
    ∃ t, exec (.writeNBits n value) s = .next t
      ∧ WrFaulted s t 0x32 (n.setWidth 32) ∧ t.sink = s.sink

/-- `write_ue` completes for every value of the domain, at every `WR.pos`, and writes the value's
code: `k` zero bits, a one bit, the `k`-bit remainder (R82, R137). -/
def Obligations.WriteUeWritesTheCode : Prop :=
  ∀ (s : State) (value : Word) (k : Nat),
    s.WrReady → s.wr.Inv → s.sink.AlwaysAccepts → value.toNat ≤ ueMax s.params →
    2 ^ k - 1 ≤ value.toNat → value.toNat ≤ 2 ^ (k + 1) - 2 →
      ∃ t, exec (.writeUe value) s = .next t
        ∧ t.bitsOut = s.bitsOut ++ (List.replicate k false ++ true
            :: (List.range k).map (fun j => (value.toNat - (2 ^ k - 1)).testBit (k - 1 - j)))
        ∧ t.wr.st = .ready ∧ t.wr.Inv ∧ t.responses = s.plus 0x00 0 0
        ∧ t.sink.AlwaysAccepts ∧ t.wrJob = none ∧ OnlyWr s t

/-- `write_se` completes for every signed value of the domain, at every `WR.pos`, and writes the
code of `2s - 1` for a positive and of `-2s` for any other value (R86, R138). -/
def Obligations.WriteSeWritesTheMappedCode : Prop :=
  ∀ (s : State) (value : Word) (c : Nat),
    s.WrReady → s.wr.Inv → s.sink.AlwaysAccepts →
    (c : Int) = (if value.toInt > 0 then 2 * value.toInt - 1 else -2 * value.toInt) →
    c ≤ ueMax s.params →
      ∃ t, exec (.writeSe value) s = .next t
        ∧ t.bitsOut = s.bitsOut ++ codeBits c
        ∧ t.wr.st = .ready ∧ t.wr.Inv ∧ t.responses = s.plus 0x00 0 0
        ∧ t.sink.AlwaysAccepts ∧ t.wrJob = none ∧ OnlyWr s t

/-- R187: an operand of `write_ue` or `write_se` outside the domain faults with the operand as info,
and no bit is written. -/
def Obligations.ValueOutsideTheDomainFaultsBeforeAnyBit : Prop :=
  ∀ (s : State) (value : Word), s.WrReady →
    (ueMax s.params < value.toNat →
      ∃ t, exec (.writeUe value) s = .next t ∧ WrFaulted s t 0x31 value ∧ t.sink = s.sink)
    ∧ (((ueMax s.params : Nat) : Int)
          < (if value.toInt > 0 then 2 * value.toInt - 1 else -2 * value.toInt) →
      ∃ t, exec (.writeSe value) s = .next t ∧ WrFaulted s t 0x31 value ∧ t.sink = s.sink)

/-- Concatenation (41_bit_writer.md section 3): one field of `n1 + n2` bits leaves the same registers
and sink as its high part followed by its low part, at every `WR.pos`. -/
def Obligations.FieldsConcatenate : Prop :=
  ∀ (s t u v : State) (n1 n2 : BitVec 8) (value : Word),
    s.WrReady → s.sink.AlwaysAccepts → n1.toNat + n2.toNat ≤ 32 →
    exec (.writeNBits (n1 + n2) value) s = .next t →
    exec (.writeNBits n1 (value >>> n2.toNat)) s = .next u →
    exec (.writeNBits n2 value) u = .next v →
      v.wr = t.wr ∧ v.sink = t.sink

/-! ### WR: frame, bounds, the sink -/

/-- Frame of the WR commands: RD, NS, the source, the scanner buffer and the inputs are as before;
every byte of the buffer reads as before; at most one response is given (10_state.md section 6). -/
def Obligations.WrCommandsFrame : Prop :=
  ∀ (s t : State) (i : Instr),
    (encodeOp i).toNat ∈ [0x11, 0x12, 0x13, 0x14, 0x15, 0x16, 0x17, 0x1F] →
    exec i s = .next t →
      OnlyWr s t ∧ (∀ a : Nat, t.buf.read a = s.buf.read a)
        ∧ (t.responses = s.responses ∨ ∃ r, t.responses = s.responses ++ [r])

/-- What has been pushed is never retracted or rewritten: every step but the binding of another sink
leaves the sink's bytes as a prefix of what it then holds (20_memory.md section 3). -/
def Obligations.SinkOnlyGrows : Prop :=
  ∀ s t : State, (∀ snk rest, s.inputs ≠ .bindSink snk :: rest) → step s = .next t →
    ∃ more, t.sink.bytes = s.sink.bytes ++ more

/-- A code write makes at most 8 pushes to a sink that accepts them (70_reset_and_hazards.md
section 4). -/
def Obligations.CodeWriteMakesAtMostEightPushes : Prop :=
  ∀ (s t : State) (value : Word), s.params.Legal → s.sink.AlwaysAccepts →
    (exec (.writeUe value) s = .next t ∨ exec (.writeSe value) s = .next t) →
      t.sink.bytes.length ≤ s.sink.bytes.length + 8

/-! ### The code and the round trips -/

/-- The code is prefix-free: two streams that begin with codes and agree have the same value and the
same rest; and the code of a value has `2k + 1` bits (30_encoding.md part A). -/
def Obligations.CodeIsPrefixFree : Prop :=
  (∀ (v v' : Nat) (rest rest' : List Bool),
    codeBits v ++ rest = codeBits v' ++ rest' → v = v' ∧ rest = rest')
  ∧ ∀ v k : Nat, 2 ^ k - 1 ≤ v → v ≤ 2 ^ (k + 1) - 2 → (codeBits v).length = 2 * k + 1

/-- The two directions of the signed mapping are mutually inverse on the domain (30_encoding.md part
A). -/
def Obligations.SignedMappingIsABijection : Prop :=
  ∀ p : Params,
    (∀ x : Int, -((seMax p : Nat) : Int) ≤ x → x ≤ ((seMax p : Nat) : Int) →
      signedToCode x ≤ ueMax p ∧ codeToSigned (signedToCode x) = x)
    ∧ (∀ c : Nat, c ≤ ueMax p →
      -((seMax p : Nat) : Int) ≤ codeToSigned c ∧ codeToSigned c ≤ ((seMax p : Nat) : Int)
        ∧ signedToCode (codeToSigned c) = c)

/-- Round trip of unsigned values (41_bit_writer.md section 3): what `write_ue` and `flush` leave in
the sink of a fresh WR, given as the source of a fresh RD, `read_ue` returns. -/
def Obligations.WrittenUeIsReadBack : Prop :=
  ∀ (s r : State) (value : Word),
    s.wr = Wr.reset → s.wrJob = none → s.sink = { bytes := [], answers := [] } →
    s.params.Legal → value.toNat ≤ ueMax s.params →
    r.rd = Rd.reset → r.rdJob = none → r.params = s.params →
      ∃ t u v, exec (.writeUe value) s = .next t ∧ exec .flush t = .next u
        ∧ exec .readUe { r with source := { bytes := u.sink.bytes, idx := 0, answers := [] } }
            = .next v
        ∧ v.responses = r.plus 0x00 value 0

/-- Round trip of signed values (41_bit_writer.md section 3), the same with `write_se` and
`read_se`. -/
def Obligations.WrittenSeIsReadBack : Prop :=
  ∀ (s r : State) (value : Word),
    s.wr = Wr.reset → s.wrJob = none → s.sink = { bytes := [], answers := [] } →
    s.params.Legal →
    -((seMax s.params : Nat) : Int) ≤ value.toInt →
    value.toInt ≤ ((seMax s.params : Nat) : Int) →
    r.rd = Rd.reset → r.rdJob = none → r.params = s.params →
      ∃ t u v, exec (.writeSe value) s = .next t ∧ exec .flush t = .next u
        ∧ exec .readSe { r with source := { bytes := u.sink.bytes, idx := 0, answers := [] } }
            = .next v
        ∧ v.responses = r.plus 0x00 value 0

/-! ### NS -/

/-- R161: which bytes make the pattern test answer 4, 3 or 0, that it reads nothing at or beyond the
end of the buffer, and that the search finds the least offset at which it does not answer 0. -/
def Obligations.StartCodeTestReadsOnlyTheBuffer : Prop :=
  ∀ (m m' : Memory) (len i : Nat),
    (startCodeAt m len i = 4 ↔ i + 4 ≤ len ∧ m.read i = 0x00 ∧ m.read (i + 1) = 0x00
      ∧ m.read (i + 2) = 0x00 ∧ m.read (i + 3) = 0x01)
    ∧ (startCodeAt m len i = 3 ↔ i + 3 ≤ len ∧ m.read i = 0x00 ∧ m.read (i + 1) = 0x00
      ∧ m.read (i + 2) = 0x01)
    ∧ (startCodeAt m len i = 0 ∨ startCodeAt m len i = 3 ∨ startCodeAt m len i = 4)
    ∧ ((∀ a, a < len → m.read a = m'.read a) → startCodeAt m len i = startCodeAt m' len i)
    ∧ (∀ j c, findStartCode m len (len - i) i = some (j, c) →
      i ≤ j ∧ j < len ∧ c = startCodeAt m len j ∧ c ≠ 0
        ∧ ∀ x, i ≤ x → x < j → startCodeAt m len x = 0)
    ∧ (findStartCode m len (len - i) i = none →
      ∀ x, i ≤ x → x < len → startCodeAt m len x = 0)

/-- `ns_init`, accepted in every state, takes a buffer that begins with a start code and faults on
any other; only it, with a good buffer, and `ns_reset` leave that fault among the commands
(42_nal_scanner.md section 2). That the buffer it takes is held as `scanBuf` is the model's (log
entry 16). -/
def Obligations.NsInitChecksThePrefix : Prop :=
  decode 0x21000000000B = .instr (.nsInit 11)
  ∧ ∀ (s : State) (len : Word),
    (startCodeAt s.buf len.toNat 0 ≠ 0 →
      exec (.nsInit len) s = .next { s with
        ns := { len := len, pos := BitVec.ofNat 32 (startCodeAt s.buf len.toNat 0),
                st := .ready, fault := 0x00 }
        scanBuf := s.buf
        responses := s.plus 0x00 0 0 })
    ∧ (startCodeAt s.buf len.toNat 0 = 0 →
      ∃ t, exec (.nsInit len) s = .next t ∧ NsFaulted s t 0x20 0 ∧ t.scanBuf = s.buf)
    ∧ ∀ (t : State) (i : Instr),
      s.ns.st = .fault → exec i s = .next t → t.ns.st ≠ .fault →
        i = .nsReset ∨ ∃ len, i = .nsInit len ∧ startCodeAt s.buf len.toNat 0 ≠ 0

/-- R163: `ns_next` in each state of NS; in `READY` the end of the sequence, or the range up to the
first start code from `NS.pos` on, or the final range up to the end of the buffer. `scanBuf` is the
buffer of NS's instance (R57; log entry 16). -/
def Obligations.NsNextYieldsTheNextRange : Prop :=
  decode 0x220000000000 = .instr .nsNext
  ∧ ∀ s : State,
    (s.ns.st = .uninit → exec .nsNext s = .next { s with responses := s.plus 0x41 0 0 })
    ∧ (s.ns.st = .fault →
      exec .nsNext s = .next { s with responses := s.plus 0x40 (s.ns.fault.setWidth 32) 0 })
    ∧ (s.ns.st = .done → exec .nsNext s = .next { s with responses := s.plus 0x01 0 0 })
    ∧ (s.ns.st = .ready → s.ns.pos = s.ns.len →
      exec .nsNext s = .next { s with
        ns := { s.ns with st := .done }, responses := s.plus 0x01 0 0 })
    ∧ (∀ i : Nat, s.ns.st = .ready → s.ns.pos.toNat ≤ i → i < s.ns.len.toNat →
        startCodeAt s.scanBuf s.ns.len.toNat i ≠ 0 →
        (∀ j, s.ns.pos.toNat ≤ j → j < i → startCodeAt s.scanBuf s.ns.len.toNat j = 0) →
      exec .nsNext s = .next { s with
        ns := { s.ns with
          pos := BitVec.ofNat 32 (i + startCodeAt s.scanBuf s.ns.len.toNat i) }
        responses := s.plus 0x00 s.ns.pos (BitVec.ofNat 32 i) })
    ∧ (s.ns.st = .ready → s.ns.pos ≠ s.ns.len →
        (∀ j, s.ns.pos.toNat ≤ j → j < s.ns.len.toNat →
          startCodeAt s.scanBuf s.ns.len.toNat j = 0) →
      exec .nsNext s = .next { s with
        ns := { s.ns with pos := s.ns.len }
        responses := s.plus 0x00 s.ns.pos s.ns.len })

/-- R164: `ns_reset` is accepted in every state and touches nothing but NS's registers. -/
def Obligations.NsResetIsAlwaysAccepted : Prop :=
  decode 0x2F0000000000 = .instr .nsReset
  ∧ ∀ s : State,
    exec .nsReset s = .next { s with
      ns := { len := 0, pos := 0, st := .uninit, fault := 0x00 }
      responses := s.plus 0x00 0 0 }

/-- Frame of the NS commands: RD, WR, the source, the sink, the scanner buffer and the inputs are as
before, the scan's buffer is too except that `ns_init` takes the placed one, and one response is given
(10_state.md section 6, 20_memory.md section 4; log entry 16). -/
def Obligations.NsCommandsFrame : Prop :=
  ∀ (s t : State) (i : Instr),
    (encodeOp i).toNat ∈ [0x21, 0x22, 0x2F] → exec i s = .next t →
      OnlyNs s t ∧ (∀ a : Nat, t.buf.read a = s.buf.read a)
        ∧ (t.scanBuf = if encodeOp i = 0x21 then s.buf else s.scanBuf)
        ∧ ∃ r, t.responses = s.responses ++ [r]

/-- The scan is finite and single-pass (42_nal_scanner.md sections 1 and 3): in a state that meets
NS's invariant, an `ns_next` that answers `OK` leaves the length and moves the position forward, never
past the end of the buffer. -/
def Obligations.ScanMovesForward : Prop :=
  ∀ s t : State, s.ns.Inv s.scanBuf → s.ns.st = .ready → exec .nsNext s = .next t →
    (s.ns.pos = s.ns.len ∧ t.ns.st = .done)
    ∨ (t.ns.st = .ready ∧ t.ns.len = s.ns.len
        ∧ s.ns.pos.toNat < t.ns.pos.toNat ∧ t.ns.pos.toNat ≤ t.ns.len.toNat)

/-! ### Faults -/

/-- R190: entering a fault sets the unit's status and cause, answers with the cause and its info
value, and leaves the other units and the environment alone. -/
def Obligations.FaultEntryRecordsTheCause : Prop :=
  ∀ (s : State) (cause : Status) (info : Word),
    (let t := s.raise .rd cause info
     t.rd.st = .fault ∧ t.rd.fault = cause.code ∧ t.responses = s.plus cause.code info 0
       ∧ t.source = s.source ∧ t.rdJob = s.rdJob ∧ OnlyRd s t)
    ∧ (let t := s.raise .wr cause info
     t.wr.st = .fault ∧ t.wr.fault = cause.code ∧ t.responses = s.plus cause.code info 0
       ∧ t.sink = s.sink ∧ t.wrJob = s.wrJob ∧ OnlyWr s t)
    ∧ (let t := s.raise .ns cause info
     t.ns.st = .fault ∧ t.ns.fault = cause.code ∧ t.responses = s.plus cause.code info 0
       ∧ t.scanBuf = s.scanBuf ∧ OnlyNs s t)

/-- Faults are not undone (60_exceptions.md section 2). A bit-level write whose first `j` pushes are
accepted and whose next push fails leaves in the sink the `j` bytes that the pending bits and the
command's bits make; what a failing sink then holds after them is `left`, any bytes (log entry 11). A
code read whose first `j` pulls deliver and whose next pull fails has consumed `j` bytes and delivers
no value; that the failing pull itself leaves the position is the model's (log entry 8). -/
def Obligations.EffectsBeforeAFaultStay : Prop :=
  (∀ (s : State) (i : Instr) (bits : List Bool) (j : Nat) (left : List Byte)
      (rest : List PushAnswer),
    WritesBits s.params i bits → s.WrReady → s.wr.Inv →
    s.sink.answers = List.replicate j .accept ++ .fail left :: rest →
    8 * (j + 1) ≤ s.wr.pos.val + bits.length →
      ∃ (t : State) (pushed : List Byte), exec i s = .next t ∧ WrFaulted s t 0x12 0
        ∧ pushed.length = j
        ∧ bytesBits pushed = ((byteBits s.wr.acc).take s.wr.pos.val ++ bits).take (8 * j)
        ∧ t.sink = { bytes := s.sink.bytes ++ pushed ++ left, answers := rest })
  ∧ ∀ (s : State) (i : Instr) (v n j : Nat) (rest : List PullAnswer),
    i ∈ [Instr.readExpGolombCode, Instr.readUe, Instr.readSe] → s.RdReady →
    s.source.answers = List.replicate j .deliver ++ .fail :: rest →
    s.source.idx + j ≤ s.source.bytes.length → v ≤ ueMax s.params → n < (codeBits v).length →
    (byteBits s.rd.cur).drop s.rd.off.val ++ bytesBits ((s.source.bytes.drop s.source.idx).take j)
        = (codeBits v).take n →
      ∃ t : State, exec i s = .next t ∧ RdFaulted s t 0x11 0
        ∧ t.source = { bytes := s.source.bytes, idx := s.source.idx + j, answers := rest }

/-- R192: the only way a faulted unit becomes usable again is a new instance, and nothing of the old
one carries over. Whatever a step does, a unit that was in `FAULT` and no longer is has been reset, by
its reset command or by hardware reset, and holds its reset values; or, for NS, `ns_init` has begun a
scan. -/
def Obligations.OnlyAResetLeavesAFault : Prop :=
  ∀ s t : State, step s = .next t →
    (s.rd.st = .fault → t.rd.st ≠ .fault →
      t.rd = Rd.reset ∧ ∃ input rest, s.inputs = input :: rest
        ∧ (input = .hardwareReset ∨ input = .command (encode .rdReset)))
    ∧ (s.wr.st = .fault → t.wr.st ≠ .fault →
      t.wr = Wr.reset ∧ ∃ input rest, s.inputs = input :: rest
        ∧ (input = .hardwareReset ∨ input = .command (encode .wrReset)))
    ∧ (s.ns.st = .fault → t.ns.st ≠ .fault →
      ∃ input rest, s.inputs = input :: rest
        ∧ ((t.ns = Ns.reset
              ∧ (input = .hardwareReset ∨ input = .command (encode .nsReset)))
            ∨ ∃ len, input = .command (encode (.nsInit len))
              ∧ t.ns = { len := len, pos := BitVec.ofNat 32 (startCodeAt s.buf len.toNat 0),
                         st := .ready, fault := 0x00 }))

/-- The first cause is the one kept: no command but one that begins a new instance changes the
registers of a faulted unit (60_exceptions.md section 3). -/
def Obligations.FirstCauseIsKept : Prop :=
  ∀ (s t : State) (i : Instr), exec i s = .next t →
    (s.rd.st = .fault → i ≠ .rdReset → t.rd = s.rd)
    ∧ (s.wr.st = .fault → i ≠ .wrReset → t.wr = s.wr)
    ∧ (s.ns.st = .fault → i ≠ .nsReset → (∀ len, i ≠ .nsInit len) → t.ns = s.ns)

/-! ### Whole-machine rules -/

/-- Every status a command answers with is one of the twelve codes of 30_encoding.md part B: a step
adds at most one response, and no other value of `status` is ever produced. -/
def Obligations.EveryStatusIsListed : Prop :=
  ∀ s t : State, step s = .next t →
    t.responses = s.responses
    ∨ ∃ r : Response, t.responses = s.responses ++ [r] ∧ r.status ∈ statusCodes

/-- R180: a command ends in one of four ways: success; a fault that its unit keeps, with the fault's
info value and no result; a refusal that changes nothing; or no response, while its unit waits. -/
def Obligations.CommandsEndInFourWays : Prop :=
  ∀ (s t : State) (w : Command) (rest : List Input),
    s.inputs = .command w :: rest → step s = .next t →
    (∃ r : Response, t.responses = s.responses ++ [r]
      ∧ (r.status = 0x00 ∨ (r.status = 0x01 ∧ decode w = .instr .nsNext)))
    ∨ (∃ r : Response, t.responses = s.responses ++ [r] ∧ r.r1 = 0
      ∧ (((r.status = 0x10 ∧ r.r0 = 0) ∨ (r.status = 0x11 ∧ r.r0 = 0)
            ∨ (r.status = 0x30 ∧ r.r0 = BitVec.ofNat 32 (s.params.kMax + 1)))
          ∧ t.rd.st = .fault ∧ t.rd.fault = r.status
        ∨ ((r.status = 0x12 ∧ r.r0 = 0) ∨ (r.status = 0x31 ∧ r.r0 = immField w)
            ∨ (r.status = 0x32 ∧ r.r0 = (countField w).setWidth 32))
          ∧ t.wr.st = .fault ∧ t.wr.fault = r.status
        ∨ (r.status = 0x20 ∧ r.r0 = 0) ∧ t.ns.st = .fault ∧ t.ns.fault = r.status))
    ∨ (∃ r : Response, r.status ∈ [0x40, 0x41, 0x7F] ∧ r.r1 = 0
      ∧ t = { s with inputs := rest, responses := s.responses ++ [r] })
    ∨ (t.responses = s.responses
      ∧ ∃ i, decode w = .instr i
        ∧ ((unitOf i = .rd ∧ t.rdJob ≠ none) ∨ (unitOf i = .wr ∧ t.wrJob ≠ none)))

/-- The units share no state (00_scope.md section 1, 30_encoding.md part B): what a command answers,
and what it does to its unit and that unit's stream or buffer, depends on nothing of the other two
units, of their streams and buffers, or of the inputs. The counter of free values (log entry 5) is
shared, so the two states agree on it. -/
def Obligations.AnswersDependOnTheOwnUnitAlone : Prop :=
  ∀ (s s' t : State) (i : Instr),
    s'.responses = s.responses → s'.freeIdx = s.freeIdx → exec i s = .next t →
    (unitOf i = .rd → s'.params = s.params → s'.rd = s.rd → s'.rdJob = s.rdJob →
        s'.source = s.source →
      ∃ t', exec i s' = .next t' ∧ t'.responses = t.responses ∧ t'.freeIdx = t.freeIdx
        ∧ t'.rd = t.rd ∧ t'.rdJob = t.rdJob ∧ t'.source = t.source)
    ∧ (unitOf i = .wr → s'.params = s.params → s'.wr = s.wr → s'.wrJob = s.wrJob →
        s'.sink = s.sink →
      ∃ t', exec i s' = .next t' ∧ t'.responses = t.responses ∧ t'.freeIdx = t.freeIdx
        ∧ t'.wr = t.wr ∧ t'.wrJob = t.wrJob ∧ t'.sink = t.sink)
    ∧ (unitOf i = .ns → s'.ns = s.ns → s'.buf = s.buf → s'.scanBuf = s.scanBuf →
      ∃ t', exec i s' = .next t' ∧ t'.responses = t.responses ∧ t'.freeIdx = t.freeIdx
        ∧ t'.ns = t.ns ∧ t'.buf = t.buf ∧ t'.scanBuf = t.scanBuf)

/-- The invariants of 10_state.md section 7 hold after every step, from every state in which they
hold. -/
def Obligations.EveryStepKeepsTheInvariant : Prop :=
  ∀ s t : State, s.Inv → step s = .next t → t.Inv

/-- The reset state meets the invariant. -/
def Obligations.ResetMeetsTheInvariant : Prop :=
  State.reset.Inv

/-- No step changes the parameter `K_MAX` (00_scope.md section 4). -/
def Obligations.NoStepChangesTheParameter : Prop :=
  ∀ s t : State, step s = .next t → t.params = s.params
end

