-- ==== Sys2Proof/Laws/State.lean ====
section
/-! SUPPORT. The small lemmas of the state's updates: what each leaves in each field. -/

namespace Sys2Proof.Machine

variable (s : State) (u : EgbUnit) (status cause : Status) (r0 r1 info : Word) (c : Byte)

/-! ### respond -/

@[simp] theorem respond_params : (s.respond status r0 r1).params = s.params := rfl
@[simp] theorem respond_rd : (s.respond status r0 r1).rd = s.rd := rfl
@[simp] theorem respond_wr : (s.respond status r0 r1).wr = s.wr := rfl
@[simp] theorem respond_ns : (s.respond status r0 r1).ns = s.ns := rfl
@[simp] theorem respond_rdJob : (s.respond status r0 r1).rdJob = s.rdJob := rfl
@[simp] theorem respond_wrJob : (s.respond status r0 r1).wrJob = s.wrJob := rfl
@[simp] theorem respond_source : (s.respond status r0 r1).source = s.source := rfl
@[simp] theorem respond_sink : (s.respond status r0 r1).sink = s.sink := rfl
@[simp] theorem respond_buf : (s.respond status r0 r1).buf = s.buf := rfl
@[simp] theorem respond_scanBuf : (s.respond status r0 r1).scanBuf = s.scanBuf := rfl
@[simp] theorem respond_inputs : (s.respond status r0 r1).inputs = s.inputs := rfl
@[simp] theorem respond_freeIdx : (s.respond status r0 r1).freeIdx = s.freeIdx := rfl
@[simp] theorem respond_responses :
    (s.respond status r0 r1).responses = s.plus status.code r0 r1 := rfl

/-! ### refuseFaulted -/

@[simp] theorem refuseFaulted_eq :
    s.refuseFaulted c = { s with responses := s.plus 0x40 (byteWord c) 0 } := rfl

/-! ### markFaulted -/

@[simp] theorem markFaulted_params : (s.markFaulted u cause).params = s.params := by
  cases u <;> rfl
@[simp] theorem markFaulted_rdJob : (s.markFaulted u cause).rdJob = s.rdJob := by cases u <;> rfl
@[simp] theorem markFaulted_wrJob : (s.markFaulted u cause).wrJob = s.wrJob := by cases u <;> rfl
@[simp] theorem markFaulted_source : (s.markFaulted u cause).source = s.source := by
  cases u <;> rfl
@[simp] theorem markFaulted_sink : (s.markFaulted u cause).sink = s.sink := by cases u <;> rfl
@[simp] theorem markFaulted_buf : (s.markFaulted u cause).buf = s.buf := by cases u <;> rfl
@[simp] theorem markFaulted_scanBuf : (s.markFaulted u cause).scanBuf = s.scanBuf := by
  cases u <;> rfl
@[simp] theorem markFaulted_inputs : (s.markFaulted u cause).inputs = s.inputs := by
  cases u <;> rfl
@[simp] theorem markFaulted_responses : (s.markFaulted u cause).responses = s.responses := by
  cases u <;> rfl
@[simp] theorem markFaulted_freeIdx : (s.markFaulted u cause).freeIdx = s.freeIdx + 1 := by
  cases u <;> rfl
@[simp] theorem markFaulted_rd_st : (s.markFaulted .rd cause).rd.st = .fault := rfl
@[simp] theorem markFaulted_rd_fault : (s.markFaulted .rd cause).rd.fault = cause.code := rfl
@[simp] theorem markFaulted_wr_st : (s.markFaulted .wr cause).wr.st = .fault := rfl
@[simp] theorem markFaulted_wr_fault : (s.markFaulted .wr cause).wr.fault = cause.code := rfl
@[simp] theorem markFaulted_ns_st : (s.markFaulted .ns cause).ns.st = .fault := rfl
@[simp] theorem markFaulted_ns_fault : (s.markFaulted .ns cause).ns.fault = cause.code := rfl
@[simp] theorem markFaulted_rd_wr : (s.markFaulted .rd cause).wr = s.wr := rfl
@[simp] theorem markFaulted_rd_ns : (s.markFaulted .rd cause).ns = s.ns := rfl
@[simp] theorem markFaulted_wr_rd : (s.markFaulted .wr cause).rd = s.rd := rfl
@[simp] theorem markFaulted_wr_ns : (s.markFaulted .wr cause).ns = s.ns := rfl
@[simp] theorem markFaulted_ns_rd : (s.markFaulted .ns cause).rd = s.rd := rfl
@[simp] theorem markFaulted_ns_wr : (s.markFaulted .ns cause).wr = s.wr := rfl

/-! ### raise -/

/-- A raise is the fault's marks and its response (R190). -/
theorem raise_eq : s.raise u cause info = (s.markFaulted u cause).respond cause info 0 := rfl

@[simp] theorem raise_params : (s.raise u cause info).params = s.params := by simp [raise_eq]
@[simp] theorem raise_rdJob : (s.raise u cause info).rdJob = s.rdJob := by simp [raise_eq]
@[simp] theorem raise_wrJob : (s.raise u cause info).wrJob = s.wrJob := by simp [raise_eq]
@[simp] theorem raise_source : (s.raise u cause info).source = s.source := by simp [raise_eq]
@[simp] theorem raise_sink : (s.raise u cause info).sink = s.sink := by simp [raise_eq]
@[simp] theorem raise_buf : (s.raise u cause info).buf = s.buf := by simp [raise_eq]
@[simp] theorem raise_scanBuf : (s.raise u cause info).scanBuf = s.scanBuf := by simp [raise_eq]
@[simp] theorem raise_inputs : (s.raise u cause info).inputs = s.inputs := by simp [raise_eq]
@[simp] theorem raise_freeIdx : (s.raise u cause info).freeIdx = s.freeIdx + 1 := by
  simp [raise_eq]
@[simp] theorem raise_responses :
    (s.raise u cause info).responses = s.plus cause.code info 0 := by cases u <;> rfl
@[simp] theorem raise_rd : (s.raise u cause info).rd = (s.markFaulted u cause).rd := rfl
@[simp] theorem raise_wr : (s.raise u cause info).wr = (s.markFaulted u cause).wr := rfl
@[simp] theorem raise_ns : (s.raise u cause info).ns = (s.markFaulted u cause).ns := rfl

/-! ### resetUnit and hardwareReset -/

@[simp] theorem resetUnit_rd_eq : s.resetUnit .rd = { s with rd := Rd.reset } := rfl
@[simp] theorem resetUnit_wr_eq : s.resetUnit .wr = { s with wr := Wr.reset } := rfl
@[simp] theorem resetUnit_ns_eq : s.resetUnit .ns = { s with ns := Ns.reset } := rfl
@[simp] theorem hardwareReset_eq :
    s.hardwareReset
      = { s with rd := Rd.reset, wr := Wr.reset, ns := Ns.reset, rdJob := none, wrJob := none } :=
  rfl

end Sys2Proof.Machine
end

