-- ==== Sys2Proof/Laws/Memory.lean ====
section
/-! SUPPORT. The laws of the scanner buffer: a byte written is read back, every other offset reads as
before, and the canonical form is kept. -/

namespace Sys2Proof.Machine

/-- A canonical buffer from `low` on is canonical from every lower bound. -/
theorem Memory.wfFrom_mono {low low' : Nat} (h : low' ≤ low) :
    ∀ {m : Memory}, Memory.wfFrom low m = true → Memory.wfFrom low' m = true
  | [], _ => rfl
  | (a, b) :: rest, hm => by
    simp only [Memory.wfFrom, Bool.and_eq_true, decide_eq_true_eq] at hm ⊢
    exact ⟨⟨⟨by omega, hm.1.1.2⟩, hm.1.2⟩, hm.2⟩

/-- An offset below the first listed one is unlisted. -/
theorem Memory.read_of_lt {low a : Nat} (h : a < low) :
    ∀ {m : Memory}, Memory.wfFrom low m = true → Memory.read m a = unlistedByte
  | [], _ => rfl
  | (a', b') :: rest, hm => by
    simp only [Memory.wfFrom, Bool.and_eq_true, decide_eq_true_eq] at hm
    rw [Memory.read, if_neg (by omega)]
    exact Memory.read_of_lt (by omega) hm.2

/-- A write keeps the canonical form. -/
theorem Memory.wfFrom_write {a : Nat} {b : Byte} (ha : a < bufferSpace) :
    ∀ {m : Memory} {low : Nat}, low ≤ a → Memory.wfFrom low m = true →
      Memory.wfFrom low (Memory.write m a b) = true
  | [], low, hl, _ => by
    by_cases hb : b = unlistedByte <;> simp [Memory.write, Memory.wfFrom, hb, hl, ha]
  | (a', b') :: rest, low, hl, hm => by
    have hm' := hm
    simp only [Memory.wfFrom, Bool.and_eq_true, decide_eq_true_eq] at hm
    obtain ⟨⟨⟨h1, h2⟩, h3⟩, h4⟩ := hm
    rw [Memory.write]
    split
    · split
      · exact hm'
      · next hb =>
        simp only [Memory.wfFrom, Bool.and_eq_true, decide_eq_true_eq]
        exact ⟨⟨⟨hl, ha⟩, hb⟩, ⟨⟨⟨by omega, h2⟩, h3⟩, h4⟩⟩
    · split
      · next he =>
        split
        · exact Memory.wfFrom_mono (by omega) h4
        · next hb =>
          simp only [Memory.wfFrom, Bool.and_eq_true, decide_eq_true_eq]
          exact ⟨⟨⟨hl, ha⟩, hb⟩, he ▸ h4⟩
      · simp only [Memory.wfFrom, Bool.and_eq_true, decide_eq_true_eq]
        exact ⟨⟨⟨h1, h2⟩, h3⟩, Memory.wfFrom_write ha (by omega) h4⟩

theorem Memory.wf_write {m : Memory} {a : Nat} {b : Byte} (ha : a < bufferSpace)
    (hm : m.wf = true) : (m.write a b).wf = true :=
  Memory.wfFrom_write ha (Nat.zero_le a) hm

/-- A run of bytes inside the space keeps the canonical form. -/
theorem Memory.wf_place : ∀ {bytes : List Byte} {m : Memory} {a : Nat},
    a + bytes.length ≤ bufferSpace → m.wf = true → (m.place a bytes).wf = true
  | [], _, _, _, hm => hm
  | b :: bytes, m, a, h, hm => by
    rw [List.length_cons] at h
    rw [Memory.place]
    exact Memory.wf_place (by omega) (Memory.wf_write (by omega) hm)

/-- A byte written to a canonical buffer is read back. -/
theorem Memory.read_write_same {a : Nat} {b : Byte} :
    ∀ {m : Memory} {low : Nat}, Memory.wfFrom low m = true →
      Memory.read (Memory.write m a b) a = b
  | [], _, _ => by
    by_cases hb : b = unlistedByte <;> simp [Memory.write, Memory.read, hb]
  | (a', b') :: rest, low, hm => by
    have hm' := hm
    simp only [Memory.wfFrom, Bool.and_eq_true, decide_eq_true_eq] at hm
    rw [Memory.write]
    split
    · split
      · next hlt hb =>
        rw [Memory.read, if_neg (by omega), hb]
        exact Memory.read_of_lt (by omega) hm.2
      · simp [Memory.read]
    · split
      · next he =>
        split
        · next hb => rw [hb]; exact Memory.read_of_lt (by omega) hm.2
        · simp [Memory.read]
      · next hne =>
        rw [Memory.read, if_neg hne]
        exact Memory.read_write_same hm.2

/-- A write leaves every other offset alone. -/
theorem Memory.read_write_other {a c : Nat} {b : Byte} (h : c ≠ a) :
    ∀ {m : Memory}, Memory.read (Memory.write m a b) c = Memory.read m c
  | [] => by by_cases hb : b = unlistedByte <;> simp [Memory.write, Memory.read, hb, h]
  | (a', b') :: rest => by
    rw [Memory.write]
    split
    · split
      · rfl
      · simp [Memory.read, h]
    · split
      · next he =>
        have hc : c ≠ a' := he ▸ h
        split <;> simp [Memory.read, h, hc]
      · simp only [Memory.read, Memory.read_write_other h]

/-- The reset buffer is canonical. -/
theorem Memory.wf_reset : State.reset.buf.wf = true := rfl

theorem Memory.wf_reset_scanBuf : State.reset.scanBuf.wf = true := rfl

end Sys2Proof.Machine
end

