-- ==== Sys2Proof/Laws/Operands.lean ====
section
/-! SUPPORT. The laws of the bit sequences of 30_encoding.md part A. -/

namespace Sys2Proof.Machine

/-- A fixed-width field, position by position (R81). -/
theorem fieldBits_eq_map : ∀ n v : Nat,
    fieldBits n v = (List.range n).map (fun j => v.testBit (n - 1 - j))
  | 0, _ => rfl
  | n + 1, v => by
    rw [fieldBits, fieldBits_eq_map n v, List.range_succ_eq_map, List.map_cons, List.map_map]
    congr 1
    refine List.map_congr_left fun j hj => ?_
    have := List.mem_range.1 hj
    simp only [Function.comp, Nat.add_sub_cancel]
    congr 1
    omega

@[simp] theorem fieldBits_zero_value : ∀ n : Nat, fieldBits n 0 = List.replicate n false
  | 0 => rfl
  | n + 1 => by simp [fieldBits, fieldBits_zero_value n, List.replicate_succ]

@[simp] theorem fieldBits_length : ∀ n v : Nat, (fieldBits n v).length = n
  | 0, _ => rfl
  | n + 1, v => by simp [fieldBits, fieldBits_length n v]

/-- The eight bits of a byte, most significant first (R80). -/
theorem byteBits_eq (b : Byte) :
    byteBits b = [b.getLsbD 7, b.getLsbD 6, b.getLsbD 5, b.getLsbD 4, b.getLsbD 3, b.getLsbD 2,
      b.getLsbD 1, b.getLsbD 0] := by
  simp only [byteBits, fieldBits, BitVec.testBit_toNat]

/-- The prefix length of a code is its value's bucket (R82, R83). -/
theorem bucket_bounds (v : Nat) : 2 ^ bucket v ≤ v + 1 ∧ v + 1 < 2 ^ (bucket v + 1) :=
  ⟨Nat.log2_self_le (by omega), Nat.lt_log2_self⟩

theorem bucket_le {v k : Nat} (h : v + 1 < 2 ^ (k + 1)) : bucket v ≤ k := by
  by_contra hc
  have h1 : 2 ^ (k + 1) ≤ 2 ^ bucket v := Nat.pow_le_pow_right (by omega) (by omega)
  have h2 := (bucket_bounds v).1
  omega

/-- A code spelled out: the zero bits, the one bit, the suffix (R82). -/
theorem codeBits_append (v : Nat) (rest : List Bool) :
    codeBits v ++ rest = List.replicate (bucket v) false ++ true
      :: (fieldBits (bucket v) (v - (2 ^ bucket v - 1)) ++ rest) := by
  simp [codeBits]

end Sys2Proof.Machine
end

