-- ==== Sys2Proof/Laws/Ops.lean ====
section
/-! SUPPORT. What a pull, a push and the preambles can do, said once. -/

namespace Sys2Proof.Machine

/-! ### One pull -/

theorem pull_of_some {src : Source} {b : Byte} (h : src.NextDelivers)
    (hb : src.bytes[src.idx]? = some b) : src.pull = .byte b src.advanced := by
  rcases src with ⟨bytes, idx, _ | ⟨a, rest⟩⟩
  · simp_all [Source.pull, Source.deliver, Source.advanced]
  · simp only [Source.NextDelivers, List.head?_cons, reduceCtorEq, Option.some.injEq,
      false_or] at h
    subst h
    simp_all [Source.pull, Source.deliver, Source.advanced]

theorem pull_of_none {src : Source} (h : src.NextDelivers)
    (hb : src.bytes[src.idx]? = none) : src.pull = .failed .srcUnderrun src.answered := by
  rcases src with ⟨bytes, idx, _ | ⟨a, rest⟩⟩
  · simp_all [Source.pull, Source.deliver, Source.answered]
  · simp only [Source.NextDelivers, List.head?_cons, reduceCtorEq, Option.some.injEq,
      false_or] at h
    subst h
    simp_all [Source.pull, Source.deliver, Source.answered]

theorem pull_of_fail {src : Source} (h : src.answers.head? = some .fail) :
    src.pull = .failed .srcIo src.answered := by
  rcases src with ⟨bytes, idx, _ | ⟨a, rest⟩⟩
  · simp at h
  · simp only [List.head?_cons, Option.some.injEq] at h
    subst h
    rfl

theorem pull_of_withhold {src : Source} (h : src.answers.head? = some .withhold) :
    src.pull = .withheld src.answered := by
  rcases src with ⟨bytes, idx, _ | ⟨a, rest⟩⟩
  · simp at h
  · simp only [List.head?_cons, Option.some.injEq] at h
    subst h
    rfl

/-- The four outcomes of a pull (R52). -/
theorem pull_cases (src : Source) :
    (∃ b, src.NextDelivers ∧ src.bytes[src.idx]? = some b ∧ src.pull = .byte b src.advanced)
    ∨ (src.NextDelivers ∧ src.bytes[src.idx]? = none
        ∧ src.pull = .failed .srcUnderrun src.answered)
    ∨ (src.answers.head? = some .fail ∧ src.pull = .failed .srcIo src.answered)
    ∨ (src.answers.head? = some .withhold ∧ src.pull = .withheld src.answered) := by
  rcases h : src.answers.head? with _ | (_ | _ | _)
  · cases hb : src.bytes[src.idx]? with
    | none => exact .inr (.inl ⟨.inl h, rfl, pull_of_none (.inl h) hb⟩)
    | some b => exact .inl ⟨b, .inl h, rfl, pull_of_some (.inl h) hb⟩
  · cases hb : src.bytes[src.idx]? with
    | none => exact .inr (.inl ⟨.inr h, rfl, pull_of_none (.inr h) hb⟩)
    | some b => exact .inl ⟨b, .inr h, rfl, pull_of_some (.inr h) hb⟩
  · exact .inr (.inr (.inl ⟨rfl, pull_of_fail h⟩))
  · exact .inr (.inr (.inr ⟨rfl, pull_of_withhold h⟩))

@[simp] theorem advanced_bytes (src : Source) : src.advanced.bytes = src.bytes := rfl
@[simp] theorem advanced_idx (src : Source) : src.advanced.idx = src.idx + 1 := rfl
@[simp] theorem answered_bytes (src : Source) : src.answered.bytes = src.bytes := rfl
@[simp] theorem answered_idx (src : Source) : src.answered.idx = src.idx := rfl

/-- A source that always delivers goes on doing so. -/
theorem AlwaysDelivers.advanced {src : Source} (h : src.AlwaysDelivers) :
    src.advanced.AlwaysDelivers := fun a ha => h a (List.mem_of_mem_tail ha)

theorem AlwaysDelivers.answered {src : Source} (h : src.AlwaysDelivers) :
    src.answered.AlwaysDelivers := fun a ha => h a (List.mem_of_mem_tail ha)

theorem AlwaysDelivers.next {src : Source} (h : src.AlwaysDelivers) : src.NextDelivers := by
  rcases src with ⟨bytes, idx, _ | ⟨a, rest⟩⟩
  · exact .inl rfl
  · exact .inr (congrArg some (h a List.mem_cons_self))

/-! ### One push -/

/-- The three outcomes of a push (R55). -/
theorem push_cases (snk : Sink) (b : Byte) :
    (snk.NextAccepts ∧ snk.push b = .accepted (snk.appended b))
    ∨ (∃ left, snk.answers.head? = some (.fail left)
        ∧ snk.push b
          = .failed .snkIo { bytes := snk.bytes ++ left, answers := snk.answers.tail })
    ∨ (snk.answers.head? = some .withhold
        ∧ snk.push b = .withheld { snk with answers := snk.answers.tail }) := by
  rcases snk with ⟨bytes, _ | ⟨a, rest⟩⟩
  · exact .inl ⟨.inl rfl, rfl⟩
  · cases a with
    | accept => exact .inl ⟨.inr rfl, rfl⟩
    | fail left => exact .inr (.inl ⟨left, rfl, rfl⟩)
    | withhold => exact .inr (.inr ⟨rfl, rfl⟩)

theorem push_of_accepts {snk : Sink} {b : Byte} (h : snk.NextAccepts) :
    snk.push b = .accepted (snk.appended b) := by
  rcases push_cases snk b with ⟨_, h'⟩ | ⟨left, h', _⟩ | ⟨h', _⟩
  · exact h'
  · rcases h with h | h <;> simp [h] at h'
  · rcases h with h | h <;> simp [h] at h'

theorem push_of_fail {snk : Sink} {b : Byte} {left : List Byte}
    (h : snk.answers.head? = some (.fail left)) :
    snk.push b = .failed .snkIo { bytes := snk.bytes ++ left, answers := snk.answers.tail } := by
  rcases snk with ⟨bytes, _ | ⟨a, rest⟩⟩
  · simp at h
  · simp only [List.head?_cons, Option.some.injEq] at h
    subst h
    rfl

theorem push_of_withhold {snk : Sink} {b : Byte} (h : snk.answers.head? = some .withhold) :
    snk.push b = .withheld { snk with answers := snk.answers.tail } := by
  rcases snk with ⟨bytes, _ | ⟨a, rest⟩⟩
  · simp at h
  · simp only [List.head?_cons, Option.some.injEq] at h
    subst h
    rfl

theorem AlwaysAccepts.next {snk : Sink} (h : snk.AlwaysAccepts) : snk.NextAccepts := by
  rcases snk with ⟨bytes, _ | ⟨a, rest⟩⟩
  · exact .inl rfl
  · exact .inr (congrArg some (h a List.mem_cons_self))

theorem AlwaysAccepts.appended {snk : Sink} (h : snk.AlwaysAccepts) (b : Byte) :
    (snk.appended b).AlwaysAccepts := fun a ha => h a (List.mem_of_mem_tail ha)

/-! ### The preambles -/

/-- Everything an RD command can do before its own work begins (R91, R117). -/
theorem rdPreamble_next {body : State → State} {s t : State} :
    rdPreamble body s = .next t ↔
      s.rdJob = none ∧ ((s.rd.st = .fault ∧ t = s.refuseFaulted s.rd.fault)
        ∨ (s.rd.st = .ready ∧ t = body s)) := by
  unfold rdPreamble
  cases hj : s.rdJob <;> cases hs : s.rd.st <;> simp [eq_comm]

/-- Everything a WR command can do before its own work begins (R91, R131). -/
theorem wrPreamble_next {body : State → State} {s t : State} :
    wrPreamble body s = .next t ↔
      s.wrJob = none ∧ ((s.wr.st = .fault ∧ t = s.refuseFaulted s.wr.fault)
        ∨ (s.wr.st = .ready ∧ t = body s)) := by
  unfold wrPreamble
  cases hj : s.wrJob <;> cases hs : s.wr.st <;> simp [eq_comm]

theorem rdPreamble_ready {body : State → State} {s : State} (h : s.RdReady) :
    rdPreamble body s = .next (body s) := rdPreamble_next.2 ⟨h.2, .inr ⟨h.1, rfl⟩⟩

theorem wrPreamble_ready {body : State → State} {s : State} (h : s.WrReady) :
    wrPreamble body s = .next (body s) := wrPreamble_next.2 ⟨h.2, .inr ⟨h.1, rfl⟩⟩

/-- A unit whose command waits takes no other (R91). -/
theorem rdPreamble_busy {body : State → State} {s : State} (h : s.rdJob ≠ none) :
    rdPreamble body s = .refused .readerBusy := by
  obtain ⟨job, hj⟩ := Option.ne_none_iff_exists'.1 h
  simp [rdPreamble, hj]

theorem wrPreamble_busy {body : State → State} {s : State} (h : s.wrJob ≠ none) :
    wrPreamble body s = .refused .writerBusy := by
  obtain ⟨job, hj⟩ := Option.ne_none_iff_exists'.1 h
  simp [wrPreamble, hj]

theorem rdUnlessBusy_busy {body : State → State} {s : State} (h : s.rdJob ≠ none) :
    rdUnlessBusy body s = .refused .readerBusy := by
  obtain ⟨job, hj⟩ := Option.ne_none_iff_exists'.1 h
  simp [rdUnlessBusy, hj]

theorem wrUnlessBusy_busy {body : State → State} {s : State} (h : s.wrJob ≠ none) :
    wrUnlessBusy body s = .refused .writerBusy := by
  obtain ⟨job, hj⟩ := Option.ne_none_iff_exists'.1 h
  simp [wrUnlessBusy, hj]

theorem rdUnlessBusy_next {body : State → State} {s t : State} :
    rdUnlessBusy body s = .next t ↔ s.rdJob = none ∧ t = body s := by
  unfold rdUnlessBusy
  cases hj : s.rdJob <;> simp [eq_comm]

theorem wrUnlessBusy_next {body : State → State} {s t : State} :
    wrUnlessBusy body s = .next t ↔ s.wrJob = none ∧ t = body s := by
  unfold wrUnlessBusy
  cases hj : s.wrJob <;> simp [eq_comm]

/-- Everything `ns_next` can do before its own work begins (R160). -/
theorem nsPreamble_next {body : State → State} {s t : State} :
    nsPreamble body s = .next t ↔
      (s.ns.st = .uninit ∧ t = s.respond .notReady 0 0)
      ∨ (s.ns.st = .fault ∧ t = s.refuseFaulted s.ns.fault)
      ∨ (s.ns.st = .done ∧ t = s.respond .endOfUnits 0 0)
      ∨ (s.ns.st = .ready ∧ t = body s) := by
  unfold nsPreamble
  cases hs : s.ns.st <;> simp [eq_comm]

end Sys2Proof.Machine
end

