-- ==== Sys2Proof/Laws/PerInstr.lean ====
section
/-! SUPPORT. What holds of every instruction as syntax, one lemma per constructor: its word carries
its opcode and its count in their fields (R92). -/

namespace Sys2Proof.Laws.WordFields

/-- The opcode and count fields of an instruction's word are the instruction's own. -/
def Statement (i : Instr) : Prop :=
  opField (encode i) = encodeOp i ∧ countField (encode i) = encodeCount i
    ∧ immField (encode i) = encodeImm i

/-- The fields of a word put together from its three parts. -/
theorem fields_of_parts (op n : BitVec 8) (imm : Word) :
    opField ((op ++ n ++ imm : BitVec (8 + 8 + 32)) : Command) = op
      ∧ countField ((op ++ n ++ imm : BitVec (8 + 8 + 32)) : Command) = n
      ∧ immField ((op ++ n ++ imm : BitVec (8 + 8 + 32)) : Command) = imm := by
  refine ⟨?_, ?_, ?_⟩ <;>
  · refine BitVec.eq_of_getLsbD_eq fun k hk => ?_
    simp only [opField, countField, immField]
    rw [BitVec.getLsbD_extractLsb']
    simp only [hk, decide_true, Bool.true_and]
    erw [BitVec.getLsbD_append, BitVec.getLsbD_append]
    first
      | (rw [if_neg (by omega), if_neg (by omega)]; congr 1; omega)
      | (rw [if_neg (by omega), if_pos (by omega)]; congr 1; omega)
      | (rw [if_pos (by omega)]; congr 1; omega)

theorem readBit : Statement .readBit := fields_of_parts _ _ _
theorem readByte : Statement .readByte := fields_of_parts _ _ _
theorem readExpGolombCode : Statement .readExpGolombCode := fields_of_parts _ _ _
theorem readUe : Statement .readUe := fields_of_parts _ _ _
theorem readSe : Statement .readSe := fields_of_parts _ _ _
theorem rdReset : Statement .rdReset := fields_of_parts _ _ _
theorem writeBit (b : BitVec 1) : Statement (.writeBit b) := fields_of_parts _ _ _
theorem writeBool (b : Bool) : Statement (.writeBool b) := fields_of_parts _ _ _
theorem writeByte (v : Byte) : Statement (.writeByte v) := fields_of_parts _ _ _
theorem writeNBits (n : BitVec 8) (value : Word) : Statement (.writeNBits n value) :=
  fields_of_parts _ _ _
theorem writeUe (value : Word) : Statement (.writeUe value) := fields_of_parts _ _ _
theorem writeSe (value : Word) : Statement (.writeSe value) := fields_of_parts _ _ _
theorem flush : Statement .flush := fields_of_parts _ _ _
theorem wrReset : Statement .wrReset := fields_of_parts _ _ _
theorem nsInit (len : Word) : Statement (.nsInit len) := fields_of_parts _ _ _
theorem nsNext : Statement .nsNext := fields_of_parts _ _ _
theorem nsReset : Statement .nsReset := fields_of_parts _ _ _

end Sys2Proof.Laws.WordFields
end

