-- ==== Sys2Proof/Laws/Reader.lean ====
section
/-! SUPPORT. What RD's shared operations can do, said once. -/

namespace Sys2Proof.Machine

/-- The bits still ahead of RD, as a function of its registers and its source (R35). -/
def bitsFrom (rd : Rd) (src : Source) : List Bool :=
  (byteBits rd.cur).drop rd.off.val ++ bytesBits (src.bytes.drop src.idx)

theorem bitsAhead_eq (s : State) : s.bitsAhead = bitsFrom s.rd s.source := rfl

@[simp] theorem andThen_done {α β : Type} (a : α) (rd : Rd) (src : Source)
    (f : α → Rd → Source → RdRun β) : (RdRun.done a rd src).andThen f = f a rd src := rfl

@[simp] theorem andThen_raised {α β : Type} (cause : Status) (info : Word) (src : Source)
    (f : α → Rd → Source → RdRun β) :
    (RdRun.raised cause info src).andThen f = .raised cause info src := rfl

@[simp] theorem andThen_waits {α β : Type} (job : RdJob) (rd : Rd) (src : Source)
    (f : α → Rd → Source → RdRun β) :
    (RdRun.waits job rd src).andThen f = .waits job rd src := rfl

/-- Everything `ReadBit` can do (R110). -/
theorem readBit_cases (job : RdJob) (rd : Rd) (src : Source) :
    (rd.off ≠ 8 ∧ readBit job rd src
        = .done (rd.cur.getLsbD (7 - rd.off.val)) { rd with off := rd.off + 1 } src)
    ∨ (rd.off = 8 ∧
        ((∃ b, src.NextDelivers ∧ src.bytes[src.idx]? = some b
            ∧ readBit job rd src
              = .done (b.getLsbD 7) { rd with cur := b, off := 1 } src.advanced)
        ∨ (src.NextDelivers ∧ src.bytes[src.idx]? = none
            ∧ readBit job rd src = .raised .srcUnderrun 0 src.answered)
        ∨ (src.answers.head? = some .fail
            ∧ readBit job rd src = .raised .srcIo 0 src.answered)
        ∨ (src.answers.head? = some .withhold
            ∧ readBit job rd src = .waits job rd src.answered))) := by
  by_cases h8 : rd.off = 8
  · refine .inr ⟨h8, ?_⟩
    rcases pull_cases src with ⟨b, h1, h2, h3⟩ | ⟨h1, h2, h3⟩ | ⟨h1, h2⟩ | ⟨h1, h2⟩
    · exact .inl ⟨b, h1, h2, by simp [readBit, h8, h3, takeBit]⟩
    · exact .inr (.inl ⟨h1, h2, by simp [readBit, h8, h3]⟩)
    · exact .inr (.inr (.inl ⟨h1, by simp [readBit, h8, h2]⟩))
    · exact .inr (.inr (.inr ⟨h1, by simp [readBit, h8, h2]⟩))
  · exact .inl ⟨h8, by simp [readBit, h8, takeBit]⟩

/-- While bits are ahead and the source always delivers, `ReadBit` delivers the first of them and
leaves the others ahead (R59, R110). -/
theorem readBit_of_bits {job : RdJob} {rd : Rd} {src : Source} {b : Bool} {rest : List Bool}
    (hs : src.AlwaysDelivers) (hb : bitsFrom rd src = b :: rest) :
    ∃ rd' src', readBit job rd src = .done b rd' src' ∧ bitsFrom rd' src' = rest
      ∧ src'.AlwaysDelivers ∧ rd'.st = rd.st ∧ rd'.fault = rd.fault
      ∧ src'.bytes = src.bytes := by
  rcases readBit_cases job rd src with ⟨h8, h⟩ | ⟨h8, ⟨x, _, h2, h⟩ | ⟨_, h2, _⟩ | ⟨h1, _⟩ | ⟨h1, _⟩⟩
  · refine ⟨{ rd with off := rd.off + 1 }, src, ?_, ?_, hs, rfl, rfl, rfl⟩ <;>
    · rcases rd with ⟨cur, off, st, fault⟩
      revert h8 h hb
      simp only [bitsFrom, byteBits_eq]
      fin_cases off <;> simp +contextual
  · refine ⟨{ rd with cur := x, off := 1 }, src.advanced, ?_, ?_, AlwaysDelivers.advanced hs, rfl, rfl, rfl⟩
    all_goals
      obtain ⟨hlt, hx⟩ := List.getElem?_eq_some_iff.1 h2
      have hd : src.bytes.drop src.idx = x :: src.bytes.drop (src.idx + 1) := by
        rw [List.drop_eq_getElem_cons hlt, hx]
      rw [bitsFrom, h8, hd] at hb
      simp only [byteBits_eq, bytesBits, List.flatMap_cons] at hb
      obtain ⟨rfl, rfl⟩ := List.cons.inj hb
    · exact h
    · simp [bitsFrom, byteBits_eq, bytesBits]
  · rw [bitsFrom, h8, List.drop_eq_nil_of_le (List.getElem?_eq_none_iff.1 h2)] at hb
    simp [byteBits_eq, bytesBits] at hb
  · rcases AlwaysDelivers.next hs with h' | h' <;> simp [h'] at h1
  · rcases AlwaysDelivers.next hs with h' | h' <;> simp [h'] at h1

/-- With no bit ahead and a source that always delivers, `ReadBit` underruns (R182). -/
theorem readBit_of_nil {job : RdJob} {rd : Rd} {src : Source} (hs : src.AlwaysDelivers)
    (hb : bitsFrom rd src = []) :
    readBit job rd src = .raised .srcUnderrun 0 src.answered := by
  rcases readBit_cases job rd src with ⟨h8, _⟩ | ⟨h8, ⟨x, _, h2, _⟩ | ⟨_, _, h⟩ | ⟨h1, _⟩ | ⟨h1, _⟩⟩
  · rcases rd with ⟨cur, off, st, fault⟩
    revert h8 hb
    simp only [bitsFrom, byteBits_eq]
    fin_cases off <;> simp +contextual
  · obtain ⟨hlt, hx⟩ := List.getElem?_eq_some_iff.1 h2
    rw [bitsFrom, List.drop_eq_getElem_cons hlt, bytesBits, List.flatMap_cons] at hb
    simp [byteBits_eq src.bytes[src.idx]] at hb
  · exact h
  · rcases AlwaysDelivers.next hs with h' | h' <;> simp [h'] at h1
  · rcases AlwaysDelivers.next hs with h' | h' <;> simp [h'] at h1

/-- Everything the end of RD work does to the state (R94, R190, R74). -/
theorem endRd_done (s : State) (r0 : Word) (rd : Rd) (src : Source) :
    s.endRd (.done r0 rd src)
      = { s with rd := rd, source := src, rdJob := none, responses := s.plus 0x00 r0 0 } := rfl

theorem endRd_raised (s : State) (cause : Status) (info : Word) (src : Source) :
    s.endRd (.raised cause info src)
      = State.raise .rd cause info { s with source := src, rdJob := none } := rfl

theorem endRd_waits (s : State) (job : RdJob) (rd : Rd) (src : Source) :
    s.endRd (.waits job rd src) = { s with rd := rd, source := src, rdJob := some job } := rfl

/-- RD work touches RD, its source and the responses only (R31). -/
theorem endRd_onlyRd (s : State) (run : RdRun Word) : OnlyRd s (s.endRd run) := by
  cases run <;> simp [OnlyRd, endRd_done, endRd_raised, endRd_waits]

/-- RD work answers once or not at all (R94, R74). -/
theorem endRd_responses (s : State) (run : RdRun Word) :
    (s.endRd run).responses = s.responses
      ∨ ∃ status r0, (s.endRd run).responses = s.plus (Status.code status) r0 0 := by
  cases run with
  | done r0 rd src => exact .inr ⟨.ok, r0, rfl⟩
  | raised cause info src => exact .inr ⟨cause, info, by simp [endRd_raised, State.plus]⟩
  | waits job rd src => exact .inl rfl

/-- What is left alone while bits are read: the status, the cause, the source's bytes. -/
abbrev SameRdStatus (rd rd' : Rd) (src src' : Source) : Prop :=
  rd'.st = rd.st ∧ rd'.fault = rd.fault ∧ src'.bytes = src.bytes

/-- A suffix of `left` bits that are ahead is read whole, its first bit the most significant
(R59, R113). -/
theorem readSuffix_of_bits {form : CodeForm} {k v : Nat} {rest : List Bool} :
    ∀ {left got : Nat} {rd : Rd} {src : Source}, src.AlwaysDelivers →
      bitsFrom rd src = fieldBits left v ++ rest →
      ∃ rd' src', readSuffix form k left got rd src
          = .done (2 ^ left * got + v % 2 ^ left) rd' src'
        ∧ bitsFrom rd' src' = rest ∧ src'.AlwaysDelivers ∧ SameRdStatus rd rd' src src'
  | 0, got, rd, src, hs, hb =>
    ⟨rd, src, by simp [readSuffix, Nat.mod_one], by simpa [fieldBits] using hb, hs, rfl, rfl, rfl⟩
  | left + 1, got, rd, src, hs, hb => by
    obtain ⟨rd1, src1, h1, h2, h3, h4, h5, h6⟩ :=
      readBit_of_bits (job := .suffix form k (left + 1) got) hs hb
    obtain ⟨rd2, src2, g1, g2, g3, g4, g5, g6⟩ :=
      readSuffix_of_bits (form := form) (k := k)
        (got := 2 * got + (v.testBit left).toNat) h3 h2
    refine ⟨rd2, src2, ?_, g2, g3, g4.trans h4, g5.trans h5, g6.trans h6⟩
    rw [readSuffix, h1, andThen_done, g1]
    congr 1
    rw [Nat.mod_pow_succ, Nat.testBit_eq_decide_div_mod_eq, pow_succ]
    rcases Nat.mod_two_eq_zero_or_one (v / 2 ^ left) with h | h <;> simp [h] <;> ring

/-- A prefix of `n` zero bits and a one bit that are ahead is read whole, as long as `n` more zero
bits are allowed (R113). -/
theorem readZeros_of_bits {form : CodeForm} {rest : List Bool} :
    ∀ {left k n : Nat} {rd : Rd} {src : Source}, src.AlwaysDelivers → n ≤ left →
      bitsFrom rd src = List.replicate n false ++ true :: rest →
      ∃ rd' src', readZeros form left k rd src = .done (k + n) rd' src'
        ∧ bitsFrom rd' src' = rest ∧ src'.AlwaysDelivers ∧ SameRdStatus rd rd' src src'
  | left, k, 0, rd, src, hs, _, hb => by
    obtain ⟨rd1, src1, h1, h2, h3, h4⟩ := readBit_of_bits (job := .zeros form k) hs hb
    exact ⟨rd1, src1, by rw [readZeros, h1, andThen_done]; simp, h2, h3, h4⟩
  | left + 1, k, n + 1, rd, src, hs, hn, hb => by
    rw [List.replicate_succ, List.cons_append] at hb
    obtain ⟨rd1, src1, h1, h2, h3, h4, h5, h6⟩ :=
      readBit_of_bits (job := .zeros form k) hs hb
    obtain ⟨rd2, src2, g1, g2, g3, g4, g5, g6⟩ :=
      readZeros_of_bits (form := form) (k := k + 1) h3 (Nat.le_of_succ_le_succ hn) h2
    refine ⟨rd2, src2, ?_, g2, g3, g4.trans h4, g5.trans h5, g6.trans h6⟩
    rw [readZeros, h1, andThen_done]
    simp [g1]
    omega

end Sys2Proof.Machine
end

