-- ==== Sys2Proof/Laws/Scanner.lean ====
section
/-! SUPPORT. What NS's search can do, said once. -/

namespace Sys2Proof.Machine

/-- A start code lies inside the buffer (R161). -/
theorem startCodeAt_le {m : Memory} {len i : Nat} (h : startCodeAt m len i ≠ 0) :
    3 ≤ startCodeAt m len i ∧ i + startCodeAt m len i ≤ len := by
  unfold startCodeAt at h ⊢
  split
  · next h4 => exact ⟨by decide, h4.1⟩
  · split
    · next h3 => exact ⟨by decide, h3.1⟩
    · next h4 h3 => exact absurd (by rw [if_neg h4, if_neg h3]) h

/-- Both ends of `ns_init` (R162): a scan begun on the buffer as the host has placed it, or the
fault. -/
theorem beginScan_cases (s : State) (len : Word) :
    (startCodeAt s.buf len.toNat 0 ≠ 0 ∧ s.beginScan len = { s with
        ns := { len := len, pos := BitVec.ofNat 32 (startCodeAt s.buf len.toNat 0),
                st := .ready, fault := 0x00 }
        scanBuf := s.buf
        responses := s.plus 0x00 0 0 })
    ∨ (startCodeAt s.buf len.toNat 0 = 0 ∧ NsFaulted s (s.beginScan len) 0x20 0
        ∧ (s.beginScan len).scanBuf = s.buf) := by
  by_cases h : startCodeAt s.buf len.toNat 0 = 0
  · refine .inr ⟨h, ?_⟩
    simp [State.beginScan, h, NsFaulted, OnlyNs, Status.code, State.plus]
  · refine .inl ⟨h, ?_⟩
    simp [State.beginScan, h, State.respond, State.plus, Status.code]

/-- What the search answers when it finds a start code: the first one (R161, R163). -/
theorem findStartCode_some {m : Memory} {len : Nat} :
    ∀ {left i j c : Nat}, findStartCode m len left i = some (j, c) →
      i ≤ j ∧ j < i + left ∧ c = startCodeAt m len j ∧ c ≠ 0
        ∧ ∀ k, i ≤ k → k < j → startCodeAt m len k = 0
  | 0, _, _, _, h => by simp [findStartCode] at h
  | left + 1, i, j, c, h => by
    rw [findStartCode] at h
    split at h
    · next h0 =>
      obtain ⟨h1, h2, h3, h4, h5⟩ := findStartCode_some h
      refine ⟨by omega, by omega, h3, h4, fun k hk hkj => ?_⟩
      rcases Nat.eq_or_lt_of_le hk with rfl | hlt
      · exact h0
      · exact h5 k hlt hkj
    · next h0 =>
      simp only [Option.some.injEq, Prod.mk.injEq] at h
      obtain ⟨rfl, rfl⟩ := h
      exact ⟨le_refl _, by omega, rfl, h0, fun k h1 h2 => absurd h1 (by omega)⟩

/-- What it means that the search answers nothing (R163). -/
theorem findStartCode_none {m : Memory} {len : Nat} :
    ∀ {left i : Nat}, findStartCode m len left i = none →
      ∀ k, i ≤ k → k < i + left → startCodeAt m len k = 0
  | 0, _, _ => fun k h1 h2 => absurd h1 (by omega)
  | left + 1, i, h => by
    rw [findStartCode] at h
    split at h
    · next h0 =>
      intro k hk hlt
      rcases Nat.eq_or_lt_of_le hk with rfl | hgt
      · exact h0
      · exact findStartCode_none h k hgt (by omega)
    · simp at h

end Sys2Proof.Machine
end

