-- ==== Sys2Proof/Laws/Writer.lean ====
section
/-! SUPPORT. What WR's shared operations can do, said once. -/

namespace Sys2Proof.Machine

/-- Everything a push in a WR command can do (R55, R130). -/
theorem pushAndEmpty_cases (job : WrJob) (b : Byte) (wr : Wr) (snk : Sink) :
    (snk.NextAccepts ∧ pushAndEmpty job b wr snk = .done wr.emptied (snk.appended b))
    ∨ (∃ left, snk.answers.head? = some (.fail left)
        ∧ pushAndEmpty job b wr snk
          = .raised .snkIo 0 { bytes := snk.bytes ++ left, answers := snk.answers.tail })
    ∨ (snk.answers.head? = some .withhold
        ∧ pushAndEmpty job b wr snk
          = .waits job wr { snk with answers := snk.answers.tail }) := by
  rcases push_cases snk b with ⟨h1, h2⟩ | ⟨left, h1, h2⟩ | ⟨h1, h2⟩
  · exact .inl ⟨h1, by simp [pushAndEmpty, h2]⟩
  · exact .inr (.inl ⟨left, h1, by simp [pushAndEmpty, h2]⟩)
  · exact .inr (.inr ⟨h1, by simp [pushAndEmpty, h2]⟩)

theorem pushAndEmpty_accepts {job : WrJob} {b : Byte} {wr : Wr} {snk : Sink}
    (h : snk.NextAccepts) : pushAndEmpty job b wr snk = .done wr.emptied (snk.appended b) := by
  simp [pushAndEmpty, push_of_accepts h]

theorem writeBit_below {job : WrJob} {b : Bool} {wr : Wr} {snk : Sink} (h : wr.pos ≠ 7) :
    writeBit job b wr snk = .done { wr with acc := wr.placeBit b, pos := wr.pos + 1 } snk := by
  simp [writeBit, h]

theorem writeBit_last {job : WrJob} {b : Bool} {wr : Wr} {snk : Sink} (h : wr.pos = 7) :
    writeBit job b wr snk = pushAndEmpty job (wr.placeBit b) wr snk := by
  simp [writeBit, h]

@[simp] theorem writeBits_nil (wr : Wr) (snk : Sink) : writeBits [] wr snk = .done wr snk := rfl

theorem writeBits_cons_done {b : Bool} {rest : List Bool} {wr wr' : Wr} {snk snk' : Sink}
    (h : writeBit (.bits (b :: rest)) b wr snk = .done wr' snk') :
    writeBits (b :: rest) wr snk = writeBits rest wr' snk' := by
  simp [writeBits, h]

theorem endWr_done (s : State) (wr : Wr) (snk : Sink) :
    s.endWr (.done wr snk)
      = { s with wr := wr, sink := snk, wrJob := none, responses := s.plus 0x00 0 0 } := rfl

theorem endWr_raised (s : State) (cause : Status) (info : Word) (snk : Sink) :
    s.endWr (.raised cause info snk)
      = State.raise .wr cause info { s with sink := snk, wrJob := none } := rfl

theorem endWr_waits (s : State) (job : WrJob) (wr : Wr) (snk : Sink) :
    s.endWr (.waits job wr snk) = { s with wr := wr, sink := snk, wrJob := some job } := rfl

/-- WR work touches WR, its sink and the responses only (R31). -/
theorem endWr_onlyWr (s : State) (run : WrRun) : OnlyWr s (s.endWr run) := by
  cases run <;> simp [OnlyWr, endWr_done, endWr_raised, endWr_waits]

/-- WR work answers once or not at all (R94, R74). -/
theorem endWr_responses (s : State) (run : WrRun) :
    (s.endWr run).responses = s.responses
      ∨ ∃ status r0, (s.endWr run).responses = s.plus (Status.code status) r0 0 := by
  cases run with
  | done wr snk => exact .inr ⟨.ok, 0, rfl⟩
  | raised cause info snk => exact .inr ⟨cause, info, by simp [endWr_raised, State.plus]⟩
  | waits job wr snk => exact .inl rfl

/-- The bits written so far, as a function of WR's registers and its sink (R36). -/
def bitsInto (wr : Wr) (snk : Sink) : List Bool :=
  bytesBits snk.bytes ++ (byteBits wr.acc).take wr.pos.val

theorem bitsOut_eq (s : State) : s.bitsOut = bitsInto s.wr s.sink := rfl

/-- The bits of `WR.acc` not yet written are zero (R33). -/
abbrev Wr.LowBitsZero (wr : Wr) : Prop := wr.acc.toNat % 2 ^ (8 - wr.pos.val) = 0

theorem lowBitsZero_iff {wr : Wr} :
    wr.LowBitsZero ↔ ∀ i, i < 8 - wr.pos.val → wr.acc.getLsbD i = false := by
  constructor
  · intro h i hi
    have := congrArg (·.testBit i) h
    simpa [Nat.testBit_mod_two_pow, hi, BitVec.testBit_toNat] using this
  · intro h
    refine Nat.eq_of_testBit_eq fun i => ?_
    simp only [Nat.testBit_mod_two_pow, Nat.zero_testBit, BitVec.testBit_toNat]
    by_cases hi : i < 8 - wr.pos.val
    · simp [h i hi]
    · simp [hi]

/-- `WriteBit` sets bit `7 - WR.pos` and leaves the others (R130). -/
theorem placeBit_getLsbD (wr : Wr) (b : Bool) {i : Nat} (hi : i < 8) :
    (wr.placeBit b).getLsbD i
      = (wr.acc.getLsbD i || (decide (i = 7 - wr.pos.val) && b)) := by
  simp only [Wr.placeBit, BitVec.getLsbD_or, BitVec.getLsbD_shiftLeft, BitVec.getLsbD_setWidth,
    BitVec.getLsbD_ofBool]
  have := wr.pos.isLt
  congr 1
  rcases Nat.lt_trichotomy i (7 - wr.pos.val) with h | h | h
  · simp [h, Nat.ne_of_lt h]
  · subst h
    simp [hi]
  · have h0 : i - (7 - wr.pos.val) ≠ 0 := by omega
    simp [Nat.ne_of_gt h, h0]

/-- To a sink that accepts, `WriteBit` appends its bit to the bits written (R130, R141). -/
theorem writeBit_of_accepts {job : WrJob} {b : Bool} {wr : Wr} {snk : Sink}
    (hl : wr.LowBitsZero) (ha : snk.AlwaysAccepts) :
    ∃ wr' snk', writeBit job b wr snk = .done wr' snk'
      ∧ bitsInto wr' snk' = bitsInto wr snk ++ [b]
      ∧ wr'.LowBitsZero ∧ snk'.AlwaysAccepts ∧ wr'.st = wr.st ∧ wr'.fault = wr.fault := by
  rw [lowBitsZero_iff] at hl
  have hp := fun {i : Nat} (hi : i < 8) => placeBit_getLsbD wr b hi
  have h0 := hl 0
  by_cases h7 : wr.pos = 7
  · refine ⟨_, _, (writeBit_last h7).trans (pushAndEmpty_accepts (AlwaysAccepts.next ha)), ?_, ?_,
      AlwaysAccepts.appended ha _, rfl, rfl⟩
    · simp only [h7] at hp h0
      simp only [bitsInto, Wr.emptied, Sink.appended, bytesBits, h7, byteBits_eq,
        List.flatMap_append, List.flatMap_cons, List.flatMap_nil]
      simp only [hp (show 7 < 8 by omega), hp (show 6 < 8 by omega), hp (show 5 < 8 by omega),
        hp (show 4 < 8 by omega), hp (show 3 < 8 by omega), hp (show 2 < 8 by omega),
        hp (show 1 < 8 by omega), hp (show 0 < 8 by omega)]
      simp at h0
      simp [h0]
    · simp [Wr.LowBitsZero, Wr.emptied]
  · refine ⟨_, _, writeBit_below h7, ?_, ?_, ha, rfl, rfl⟩
    · rcases wr with ⟨acc, pos, st, fault⟩
      simp only [bitsInto, byteBits_eq] at *
      rw [hp (show 7 < 8 by omega), hp (show 6 < 8 by omega), hp (show 5 < 8 by omega),
        hp (show 4 < 8 by omega), hp (show 3 < 8 by omega), hp (show 2 < 8 by omega),
        hp (show 1 < 8 by omega), hp (show 0 < 8 by omega)]
      have hq : ∀ i (h : i < 8), i < 8 - pos.val → acc[i] = false :=
        fun i h hi => (BitVec.getLsbD_eq_getElem h).symm.trans (hl i hi)
      clear hl hp h0
      fin_cases pos <;> simp at h7 ⊢ <;> simp at hq <;> simp [hq]
    · rw [lowBitsZero_iff]
      intro i hi
      have hv : (wr.pos + 1).val = wr.pos.val + 1 := by
        rcases wr with ⟨acc, pos, st, fault⟩
        clear hl hp h0
        fin_cases pos <;> simp at h7 ⊢
      simp only [hv] at hi
      rw [hp (by omega), hl i (by omega)]
      simp
      omega

/-- To a sink that accepts, a run of bits is appended to the bits written (R141, R143). -/
theorem writeBits_of_accepts : ∀ {bits : List Bool} {wr : Wr} {snk : Sink},
    wr.LowBitsZero → snk.AlwaysAccepts →
    ∃ wr' snk', writeBits bits wr snk = .done wr' snk'
      ∧ bitsInto wr' snk' = bitsInto wr snk ++ bits
      ∧ wr'.LowBitsZero ∧ snk'.AlwaysAccepts ∧ wr'.st = wr.st ∧ wr'.fault = wr.fault
  | [], wr, snk, hl, ha => ⟨wr, snk, rfl, by simp, hl, ha, rfl, rfl⟩
  | b :: bits, wr, snk, hl, ha => by
    obtain ⟨wr1, snk1, h1, h2, h3, h4, h5, h6⟩ :=
      writeBit_of_accepts (job := .bits (b :: bits)) (b := b) hl ha
    obtain ⟨wr2, snk2, g1, g2, g3, g4, g5, g6⟩ := writeBits_of_accepts (bits := bits) h3 h4
    exact ⟨wr2, snk2, by rw [writeBits_cons_done h1, g1], by rw [g2, h2]; simp, g3, g4,
      g5.trans h5, g6.trans h6⟩

end Sys2Proof.Machine
end

