-- ==== Sys2Proof/Laws/Port.lean ====
section
/-! SUPPORT. What a step can do, said once. -/

namespace Sys2Proof.Machine

/-- Everything a step that answers a next state can have done. -/
theorem step_cases {s t : State} (h : step s = .next t) :
    (s.inputs = [] ∧ t = s)
    ∨ ∃ input rest, s.inputs = input :: rest ∧
      ((∃ w i, input = .command w ∧ decode w = .instr i
          ∧ exec i { s with inputs := rest } = .next t)
      ∨ (∃ w why, input = .command w ∧ decode w = .illegal why
          ∧ t = State.answerIllegal w { s with inputs := rest })
      ∨ (input = .hardwareReset ∧ t = State.hardwareReset { s with inputs := rest })
      ∨ (∃ src, input = .bindSource src ∧ t = { s with inputs := rest, source := src })
      ∨ (∃ snk, input = .bindSink snk ∧ t = { s with inputs := rest, sink := snk })
      ∨ (∃ bytes, input = .placeBuffer bytes ∧ s.ns.st ≠ .ready ∧ bytes.length ≤ bufferSpace
          ∧ t = { s with inputs := rest, buf := s.buf.place 0 bytes })
      ∨ (input = .sourceAnswers ∧ t = State.resumeRd { s with inputs := rest })
      ∨ (input = .sinkAnswers ∧ t = State.resumeWr { s with inputs := rest })) := by
  unfold step at h
  split at h
  · next hi => exact .inl ⟨hi, by simpa using h.symm⟩
  · next input rest hi =>
    refine .inr ⟨input, rest, hi, ?_⟩
    cases input with
    | command w =>
      simp only [takeInput, takeCommand] at h
      cases hd : decode w with
      | instr i => exact .inl ⟨w, i, rfl, hd, by simpa [hd] using h⟩
      | illegal why => exact .inr (.inl ⟨w, why, rfl, hd, by simpa [hd, eq_comm] using h⟩)
    | hardwareReset =>
      exact .inr (.inr (.inl ⟨rfl, by simpa [takeInput, eq_comm] using h⟩))
    | bindSource src =>
      simp only [takeInput] at h
      split at h
      · exact .inr (.inr (.inr (.inl ⟨src, rfl, by simpa [eq_comm] using h⟩)))
      · simp at h
    | bindSink snk =>
      simp only [takeInput] at h
      split at h
      · exact .inr (.inr (.inr (.inr (.inl ⟨snk, rfl, by simpa [eq_comm] using h⟩))))
      · simp at h
    | placeBuffer bytes =>
      simp only [takeInput, placeBuffer] at h
      split at h
      · simp at h
      · next hns =>
        split at h
        · simp at h
        · next hl =>
          exact .inr (.inr (.inr (.inr (.inr (.inl
            ⟨bytes, rfl, hns, by omega, by simpa [eq_comm] using h⟩)))))
    | sourceAnswers =>
      exact .inr (.inr (.inr (.inr (.inr (.inr (.inl
        ⟨rfl, by simpa [takeInput, eq_comm] using h⟩))))))
    | sinkAnswers =>
      exact .inr (.inr (.inr (.inr (.inr (.inr (.inr
        ⟨rfl, by simpa [takeInput, eq_comm] using h⟩))))))

/-- The step that takes the source's answer resumes the waiting RD command (R74). -/
theorem step_sourceAnswers (s : State) (rest : List Input) :
    step { s with inputs := .sourceAnswers :: rest }
      = .next (State.resumeRd { s with inputs := rest }) := rfl

/-- The step that takes the sink's answer resumes the waiting WR command (R74). -/
theorem step_sinkAnswers (s : State) (rest : List Input) :
    step { s with inputs := .sinkAnswers :: rest }
      = .next (State.resumeWr { s with inputs := rest }) := rfl

/-- A unit is reset first when inputs it does not act on stand before the reset. -/
theorem resetFirst_append {u : EgbUnit} {input : Input} {rest : List Input}
    (h : beginsInstance u input = true) :
    ∀ {before : List Input}, (∀ x ∈ before, leavesUnit u x = true) →
      resetFirst u (before ++ input :: rest) = true
  | [], _ => by simp [resetFirst, h]
  | x :: before, hb => by
    rw [List.cons_append, resetFirst, hb x List.mem_cons_self,
      resetFirst_append h fun y hy => hb y (List.mem_cons_of_mem x hy)]
    simp

/-- The word the host presents first is the word the next step takes. -/
theorem withFetchWord_inputs (s : State) (nbits w : Nat) :
    (s.withFetchWord nbits w).inputs = .command (tableWord nbits w) :: s.inputs := rfl

end Sys2Proof.Machine
end

