-- ==== Sys2Proof/Tests/Slice0.lean ====
section
/-! SUPPORT. Our own tests. The expected values come from the spec's encodings (R92) and its vectors
(95_test_vectors.md); then one witness per statement that has hypotheses. -/

namespace Sys2Proof.Tests

-- One theorem at a time: many kernel evaluations at once need more threads than check.sh allows.
set_option Elab.async false

open Sys2Proof Sys2Proof.Machine

/-! ### Words written out from R92: op, n, imm -/

theorem test_decode_read_bit : decode 0x010000000000 = .instr .readBit := by decide +kernel
theorem test_decode_read_byte : decode 0x020000000000 = .instr .readByte := by decide +kernel
theorem test_decode_read_exp_golomb_code :
    decode 0x030000000000 = .instr .readExpGolombCode := by decide +kernel
theorem test_decode_read_ue : decode 0x040000000000 = .instr .readUe := by decide +kernel
theorem test_decode_read_se : decode 0x050000000000 = .instr .readSe := by decide +kernel
theorem test_decode_rd_reset : decode 0x0F0000000000 = .instr .rdReset := by decide +kernel
theorem test_decode_write_bit : decode 0x110000000001 = .instr (.writeBit 1) := by decide +kernel
theorem test_decode_write_bool : decode 0x120000000001 = .instr (.writeBool true) := by decide +kernel
theorem test_decode_write_byte : decode 0x1300000000AB = .instr (.writeByte 0xAB) := by decide +kernel
theorem test_decode_write_n_bits :
    decode 0x14FFDEADBEEF = .instr (.writeNBits 255 0xDEADBEEF) := by decide +kernel
theorem test_decode_write_ue :
    decode 0x1500FFFFFFFE = .instr (.writeUe 0xFFFFFFFE) := by decide +kernel
theorem test_decode_write_se :
    decode 0x160080000001 = .instr (.writeSe 0x80000001) := by decide +kernel
theorem test_decode_flush : decode 0x170000000000 = .instr .flush := by decide +kernel
theorem test_decode_wr_reset : decode 0x1F0000000000 = .instr .wrReset := by decide +kernel
theorem test_decode_ns_init : decode 0x21000000000B = .instr (.nsInit 11) := by decide +kernel
theorem test_decode_ns_next : decode 0x220000000000 = .instr .nsNext := by decide +kernel
theorem test_decode_ns_reset : decode 0x2F0000000000 = .instr .nsReset := by decide +kernel

/-! ### Ill-formed words (V-CMD), one per check of a field -/

theorem test_illegal_all_zero :
    wellFormedWord 0x000000000000 = false ∧ decode 0 = .illegal .unassignedOpcode := by decide +kernel
theorem test_illegal_last_opcode :
    wellFormedWord 0xFF0000000000 = false
      ∧ decode 0xFF0000000000 = .illegal .unassignedOpcode := by decide +kernel
theorem test_illegal_operand_of_none :
    wellFormedWord 0x010000000001 = false
      ∧ decode 0x010000000001 = .illegal .operandNotZero := by decide +kernel
theorem test_illegal_count_of_none :
    wellFormedWord 0x010100000000 = false
      ∧ decode 0x010100000000 = .illegal .countNotZero := by decide +kernel
theorem test_illegal_bit_operand :
    wellFormedWord 0x110000000002 = false
      ∧ decode 0x110000000002 = .illegal .operandNotZero := by decide +kernel
theorem test_illegal_byte_operand :
    wellFormedWord 0x130000000100 = false
      ∧ decode 0x130000000100 = .illegal .operandNotZero := by decide +kernel
theorem test_illegal_count_of_write_ue :
    wellFormedWord 0x150100000000 = false
      ∧ decode 0x150100000000 = .illegal .countNotZero := by decide +kernel
theorem test_table_bits :
    decodeTableWord 48 0x1400000000FF = some (.writeNBits 0 0xFF) := by decide +kernel

/-! ### Small states -/

/-- RD at a bit offset, with a source of these bytes. -/
def reading (cur : Byte) (off : Fin 9) (bytes : List Byte) : State :=
  { State.reset with
    rd := { Rd.reset with cur := cur, off := off }
    source := { bytes := bytes, idx := 0, answers := [] } }

/-- WR with a partial byte and an empty sink. -/
def writing (acc : Byte) (pos : Fin 8) : State :=
  { State.reset with wr := { Wr.reset with acc := acc, pos := pos } }

/-- A scanner buffer of these bytes, no scan begun. -/
def holding (bytes : List Byte) : State := { State.reset with buf := Memory.place [] 0 bytes }

/-- A scan of these bytes that stands at `pos`. -/
def scanning (bytes : List Byte) (pos : Word) : State :=
  { holding bytes with
    scanBuf := (holding bytes).buf
    ns := { len := BitVec.ofNat 32 bytes.length, pos := pos, st := .ready, fault := 0x00 } }

/-- Look at the next state. -/
def after (i : Instr) (s : State) (look : State → Bool) : Bool :=
  match exec i s with
  | .next t => look t
  | .fault _ => false
  | .refused _ => false

/-- The block's one response. -/
def said (t : State) (status : Byte) (r0 r1 : Word) : Bool :=
  t.responses == [{ status := status, r0 := r0, r1 := r1 }]

/-- The document's buffer of property 5 (T5, NS1). -/
def property5 : List Byte := [0, 0, 0, 1, 0xAA, 0xBB, 0, 0, 1, 0xCC, 0xDD]

/-! ### RD (V-RD) -/

theorem test_read_bit_pulls :
    after .readBit (reading 0 8 [0xA5]) (fun t =>
      said t 0x00 1 0 && t.rd.off == 1 && t.source.idx == 1) = true := by decide +kernel
theorem test_read_bit_underruns :
    after .readBit (reading 0xA5 8 []) (fun t =>
      said t 0x10 0 0 && t.rd.st == .fault && t.rd.fault == 0x10) = true := by decide +kernel
theorem test_read_byte_misaligned :
    after .readByte (reading 0xF0 1 [0xAB]) (fun t =>
      said t 0x00 0xAB 0 && t.rd.off == 8 && t.rd.cur == 0xF0) = true := by decide +kernel
theorem test_read_exp_golomb_code_79 :
    after .readExpGolombCode (reading 0 8 [0x02, 0x80]) (fun t =>
      said t 0x00 79 0 && t.rd.off == 5 && t.source.idx == 2) = true := by decide +kernel
theorem test_read_ue_largest :
    after .readUe (reading 0 8 [0, 0, 0, 1, 0xFF, 0xFF, 0xFF, 0xFE]) (fun t =>
      said t 0x00 0xFFFFFFFE 0 && t.rd.off == 7 && t.source.idx == 8) = true := by decide +kernel
theorem test_read_ue_too_long :
    after .readUe (reading 0 8 [0, 0, 0, 0, 0x80]) (fun t =>
      said t 0x30 32 0 && t.source.idx == 4 && t.rd.fault == 0x30) = true := by decide +kernel
theorem test_read_se_minus_two :
    after .readSe (reading 0 8 [0x28]) (fun t =>
      said t 0x00 0xFFFFFFFE 0 && t.rd.off == 5) = true := by decide +kernel
theorem test_read_se_smallest :
    after .readSe (reading 0 8 [0, 0, 0, 1, 0xFF, 0xFF, 0xFF, 0xFE]) (fun t =>
      said t 0x00 0x80000001 0) = true := by decide +kernel
theorem test_rd_reset_drops_bits :
    after .rdReset (reading 0x40 3 []) (fun t =>
      said t 0x00 0 0 && t.rd == Rd.reset) = true := by decide +kernel

/-! ### WR (V-WR, T3, T4) -/

theorem test_write_bit_fills_the_byte :
    after (.writeBit 0) (writing 0xA0 7) (fun t =>
      said t 0x00 0 0 && t.sink.bytes == [0xA0] && t.wr == Wr.reset) = true := by decide +kernel
theorem test_write_bool_true :
    after (.writeBool true) (writing 0 0) (fun t =>
      said t 0x00 0 0 && t.wr.acc == 0x80 && t.wr.pos == 1) = true := by decide +kernel
theorem test_write_byte_drops_pending_bits :
    after (.writeByte 0xAB) (writing 0xE0 3) (fun t =>
      said t 0x00 0 0 && t.sink.bytes == [0xAB] && t.wr == Wr.reset) = true := by decide +kernel
theorem test_write_n_bits_crosses_a_byte :
    after (.writeNBits 5 0xFF) (writing 0 5) (fun t =>
      said t 0x00 0 0 && t.sink.bytes == [0x07] && t.wr.acc == 0xC0 && t.wr.pos == 2) = true := by
  decide +kernel
theorem test_write_n_bits_too_wide :
    after (.writeNBits 33 0) (writing 0 0) (fun t =>
      said t 0x32 0x21 0 && t.sink.bytes == [] && t.wr.fault == 0x32) = true := by decide +kernel
theorem test_write_ue_79 :
    after (.writeUe 79) (writing 0 0) (fun t =>
      said t 0x00 0 0 && t.sink.bytes == [0x02] && t.wr.acc == 0x80 && t.wr.pos == 5) = true := by
  decide +kernel
theorem test_write_ue_outside :
    after (.writeUe 0xFFFFFFFF) (writing 0 0) (fun t =>
      said t 0x31 0xFFFFFFFF 0 && t.sink.bytes == []) = true := by decide +kernel
theorem test_write_se_minus_two :
    after (.writeSe 0xFFFFFFFE) (writing 0 0) (fun t =>
      said t 0x00 0 0 && t.wr.acc == 0x28 && t.wr.pos == 5) = true := by decide +kernel
theorem test_write_se_outside :
    after (.writeSe 0x80000000) (writing 0 0) (fun t =>
      said t 0x31 0x80000000 0 && t.wr.st == .fault) = true := by decide +kernel
theorem test_flush_pads :
    after .flush (writing 0xC0 2) (fun t =>
      said t 0x00 0 0 && t.sink.bytes == [0xC0] && t.wr == Wr.reset) = true := by decide +kernel
theorem test_flush_with_nothing_pending :
    after .flush (writing 0 0) (fun t => said t 0x00 0 0 && t.sink.bytes == []) = true := by decide +kernel
theorem test_wr_reset_discards :
    after .wrReset (writing 0x80 1) (fun t =>
      said t 0x00 0 0 && t.sink.bytes == [] && t.wr == Wr.reset) = true := by decide +kernel

/-! ### NS (V-NS) -/

theorem test_ns_init_four_bytes :
    after (.nsInit 11) (holding property5) (fun t =>
      said t 0x00 0 0 && t.ns.pos == 4 && t.ns.st == .ready) = true := by decide +kernel
theorem test_ns_init_extra_zero :
    after (.nsInit 6) (holding [0, 0, 0, 0, 1, 0xAA]) (fun t =>
      said t 0x20 0 0 && t.ns.st == .fault && t.ns.fault == 0x20) = true := by decide +kernel
theorem test_ns_next_first_unit :
    after .nsNext (scanning property5 4) (fun t => said t 0x00 4 6 && t.ns.pos == 9) = true := by
  decide +kernel
theorem test_ns_next_keeps_a_leading_zero :
    after .nsNext (scanning [0, 0, 1, 0xAA, 0, 0, 0, 0, 1, 0xBB] 3) (fun t =>
      said t 0x00 3 5 && t.ns.pos == 9) = true := by decide +kernel
theorem test_finished_scan_keeps_its_buffer :
    (match step { scanning property5 11 with
        ns := { (scanning property5 11).ns with st := .done }
        inputs := [.placeBuffer [0xAA, 0xBB]] } with
      | .next t => t.scanBuf == (holding property5).buf && t.buf.read 0 == 0xAA
      | .fault _ => false
      | .refused _ => false) = true := by decide +kernel
theorem test_ns_reset :
    after .nsReset (scanning property5 4) (fun t => said t 0x00 0 0 && t.ns == Ns.reset) = true := by
  decide +kernel

/-! ### The port -/

theorem test_first_step_runs_the_word :
    step (State.reset.withFetchWord 48 0x170000000000) = exec .flush State.reset := rfl

/-! ### Witnesses: states and operands that meet each statement's hypotheses -/

/-- A state with one input presented. -/
def presented (input : Input) : State := { State.reset with inputs := [input] }

/-- RD about to pull, and the source's next answer. -/
def answering (a : PullAnswer) : State :=
  { State.reset with source := { bytes := [0x80], idx := 0, answers := [a] } }

/-- WR with a partial byte, and the sink's next answer. -/
def accepting (acc : Byte) (pos : Fin 8) (a : PushAnswer) : State :=
  { writing acc pos with sink := { bytes := [], answers := [a] } }

theorem witness_EncodeReadsBackDecode :
    decode 0x14FFDEADBEEF = .instr (.writeNBits 255 0xDEADBEEF) := by decide +kernel

theorem witness_IllegalWordIsAnsweredAndChangesNothing :
    (presented (.command 0x110000000002)).inputs = [.command 0x110000000002]
      ∧ wellFormedWord 0x110000000002 = false := by decide +kernel

theorem witness_StepRunsTheDecodedCommand :
    (presented (.command 0x1300000000AB)).inputs = [.command 0x1300000000AB]
      ∧ decode 0x1300000000AB = .instr (.writeByte 0xAB) := by decide +kernel

theorem witness_IdleStepHoldsTheState : State.reset.inputs = [] := rfl

theorem witness_HardwareResetSetsEveryRegister :
    (presented .hardwareReset).inputs = [.hardwareReset] := rfl

theorem witness_ResetValues :
    (∃ t, exec .rdReset (reading 0x40 3 []) = .next t)
      ∧ (∃ t, exec .wrReset (writing 0x80 1) = .next t)
      ∧ (∃ t, exec .nsReset (scanning property5 4) = .next t)
      ∧ ∃ t, step (presented .hardwareReset) = .next t :=
  ⟨⟨_, rfl⟩, ⟨_, rfl⟩, ⟨_, rfl⟩, ⟨_, rfl⟩⟩

theorem witness_PlacedBytesAreReadBack :
    let s := presented (.placeBuffer property5)
    s.inputs = [.placeBuffer property5] ∧ s.buf.wf = true ∧ s.ns.st ≠ .ready
      ∧ property5.length ≤ 2 ^ 32 ∧ property5[10]? = some 0xDD ∧ property5.length ≤ 11 := by
  decide +kernel

theorem witness_BindingAtReset :
    let src : Source := { bytes := [0x80], idx := 0, answers := [] }
    let snk : Sink := { bytes := [0x42], answers := [] }
    let bound := presented (.bindSource src)
    let filled := presented (.bindSink snk)
    (bound.inputs = [.bindSource src] ∧ bound.rd = Rd.reset ∧ bound.rdJob = none)
    ∧ (filled.inputs = [.bindSink snk] ∧ filled.wr = Wr.reset ∧ filled.wrJob = none)
    ∧ ({ Rd.reset with st := .fault, fault := 0x10 }).st = .fault
    ∧ ({ Wr.reset with st := .fault, fault := 0x12 }).st = .fault
    ∧ (∀ x ∈ [Input.command (encode .flush), .sinkAnswers, .placeBuffer []],
        leavesUnit .rd x = true)
    ∧ (∀ x ∈ [Input.command (encode .readBit), .command 0, .sourceAnswers],
        leavesUnit .wr x = true) := by
  decide +kernel

theorem test_binding_before_a_reset :
    (match step { reading 0x40 3 [] with
        inputs := [.bindSource { bytes := [0x80], idx := 0, answers := [] },
          .command (encode .flush), .command (encode .rdReset)] } with
      | .next t => t.source.bytes == [0x80] && t.rd.off == 3
      | .fault _ => false
      | .refused _ => false) = true := by decide +kernel

theorem witness_ReadBitDeliversTheNextBit :
    (let s := reading 0xA5 7 []; s.RdReady ∧ s.rd.off ≠ 8)
    ∧ (let s := answering .deliver
       s.RdReady ∧ s.rd.off = 8 ∧ s.source.NextDelivers ∧ s.source.bytes[s.source.idx]? = some 0x80)
    ∧ (let s := reading 0xA5 8 []
       s.RdReady ∧ s.rd.off = 8 ∧ s.source.NextDelivers ∧ s.source.bytes[s.source.idx]? = none)
    ∧ (let s := answering .fail
       s.RdReady ∧ s.rd.off = 8 ∧ s.source.answers.head? = some .fail) := by decide +kernel

theorem witness_ReadByteDeliversTheNextByte :
    (let s := reading 0xF0 1 [0xAB]
     s.RdReady ∧ s.source.NextDelivers ∧ s.source.bytes[s.source.idx]? = some 0xAB)
    ∧ (let s := reading 0xF0 1 []
       s.RdReady ∧ s.source.NextDelivers ∧ s.source.bytes[s.source.idx]? = none)
    ∧ (let s := answering .fail; s.RdReady ∧ s.source.answers.head? = some .fail) := by decide +kernel

theorem witness_ReadUeReturnsTheCodedValue :
    (let s := reading 0 8 [0, 0, 0, 1, 0xFF, 0xFF, 0xFF, 0xFE]
     Instr.readExpGolombCode ∈ [Instr.readExpGolombCode, Instr.readUe]
      ∧ s.params.Legal ∧ s.RdReady ∧ s.source.AlwaysDelivers ∧ 31 ≤ s.params.kMax
      ∧ 2147483647 < 2 ^ 31
      ∧ s.bitsAhead = List.replicate 31 false ++ true
        :: ((List.range 31).map (fun j => Nat.testBit 2147483647 (31 - 1 - j)) ++ [false]))
    ∧ (let s := reading 0x01 7 []
       Instr.readUe ∈ [Instr.readExpGolombCode, Instr.readUe]
        ∧ s.params.Legal ∧ s.RdReady ∧ s.source.AlwaysDelivers ∧ 0 ≤ s.params.kMax ∧ 0 < 2 ^ 0
        ∧ s.bitsAhead = List.replicate 0 false ++ true
        :: ((List.range 0).map (fun j => Nat.testBit 0 (0 - 1 - j)) ++ [])) := by decide +kernel

theorem witness_ReadSeReturnsTheSignedValue :
    let s := reading 0 8 [0, 0, 0, 1, 0xFF, 0xFF, 0xFF, 0xFE]
    s.params.Legal ∧ s.RdReady ∧ s.source.AlwaysDelivers
      ∧ -((seMax s.params : Nat) : Int) ≤ -2147483647
      ∧ (-2147483647 : Int) ≤ ((seMax s.params : Nat) : Int)
      ∧ ((4294967294 : Nat) : Int)
        = (if (-2147483647 : Int) > 0 then 2 * -2147483647 - 1 else -2 * -2147483647)
      ∧ s.bitsAhead = codeBits 4294967294 ++ [false] := by decide +kernel

theorem witness_LongPrefixFaultsAtTheEarliestBit :
    let s := reading 0 8 [0, 0, 0, 0, 0x80]
    Instr.readSe ∈ [Instr.readExpGolombCode, Instr.readUe, Instr.readSe] ∧ s.RdReady ∧ s.source.AlwaysDelivers
      ∧ s.bitsAhead = List.replicate (s.params.kMax + 1) false
        ++ [true, false, false, false, false, false, false, false] := by decide +kernel

theorem witness_TruncatedCodeFaultsWithUnderrun :
    let s := reading 0 8 [0x08]
    Instr.readUe ∈ [Instr.readExpGolombCode, Instr.readUe, Instr.readSe] ∧ s.RdReady ∧ s.source.AlwaysDelivers ∧ s.source.idx ≤ s.source.bytes.length
      ∧ 15 ≤ ueMax s.params ∧ 8 < (codeBits 15).length ∧ s.bitsAhead = (codeBits 15).take 8 := by
  decide +kernel

theorem witness_RdPreambleRefusesWhenFaulted :
    (let s := { State.reset with rd := { Rd.reset with st := .fault, fault := 0x10 } }
     s.rdJob = none ∧ s.rd.st = .fault)
    ∧ State.reset.rdJob = none ∧ State.reset.rd.st = .ready
    ∧ (Instr.readSe, RdJob.zeros .signed 0) ∈ [(Instr.readBit, RdJob.bit), (.readByte, .byte),
      (.readExpGolombCode, .zeros .unsigned 0), (.readUe, .zeros .unsigned 0),
      (.readSe, .zeros .signed 0)] := by decide +kernel


theorem witness_RdCommandsFrame :
    Instr.readBit ∈ [Instr.readBit, .readByte, .readExpGolombCode, .readUe, .readSe, .rdReset]
      ∧ ∃ t, exec .readBit (reading 0x40 3 []) = .next t := ⟨by decide +kernel, _, rfl⟩

theorem witness_CodeReadMakesAtMostEightPulls :
    Instr.readUe ∈ [Instr.readExpGolombCode, Instr.readUe, Instr.readSe]
      ∧ (reading 0x80 0 []).params.Legal ∧ ∃ t, exec .readUe (reading 0x80 0 []) = .next t :=
  ⟨by decide +kernel, by decide +kernel, _, rfl⟩

theorem witness_StalledCommandGivesNoResponse :
    (let s := answering .withhold
     s.RdReady ∧ s.source.answers.head? = some .withhold ∧ s.rd.off = 8)
    ∧ (let s := { reading 0x01 8 [0x08] with
        source :=
          { bytes := [0x08], idx := 0
            answers := List.replicate 1 PullAnswer.deliver ++ PullAnswer.withhold :: [] } }
     Instr.readSe ∈ [Instr.readExpGolombCode, Instr.readUe, Instr.readSe] ∧ s.RdReady
      ∧ s.source.answers = List.replicate 1 .deliver ++ .withhold :: []
      ∧ s.source.idx + 1 ≤ s.source.bytes.length ∧ 15 ≤ ueMax s.params
      ∧ 8 < (codeBits 15).length
      ∧ (byteBits s.rd.cur).drop s.rd.off.val
          ++ bytesBits ((s.source.bytes.drop s.source.idx).take 1) = (codeBits 15).take 8)
    ∧ (let s := accepting 0xFE 7 .withhold
     s.WrReady ∧ s.sink.answers.head? = some .withhold ∧ s.wr.pos = 7 ∧ s.wr.pos ≠ 0)
    ∧ (let s := { writing 0x80 1 with
        sink :=
          { bytes := [], answers := List.replicate 7 PushAnswer.accept ++ PushAnswer.withhold :: [] } }
     WritesBits s.params (.writeUe 0xFFFFFFFE) (codeBits 0xFFFFFFFE) ∧ s.WrReady ∧ s.wr.Inv
      ∧ s.sink.answers = List.replicate 7 .accept ++ .withhold :: []
      ∧ 8 * (7 + 1) ≤ s.wr.pos.val + (codeBits 0xFFFFFFFE).length)
    ∧ (let t := { State.reset with rdJob := some .bit, wrJob := some .flush }
       t.rdJob ≠ none ∧ unitOf .readSe = .rd ∧ t.wrJob ≠ none ∧ unitOf (.writeUe 0) = .wr) := by
  decide +kernel

theorem witness_StalledCommandGivesNoResponse_next :
    (∃ t, exec .readBit (answering .withhold) = .next t ∧ unitOf .readBit = .rd ∧ t.rdJob ≠ none)
      ∧ ∃ t, exec .flush (accepting 0xC0 2 .withhold) = .next t ∧ unitOf .flush = .wr
        ∧ t.wrJob ≠ none :=
  ⟨⟨_, rfl, rfl, by decide +kernel⟩, ⟨_, rfl, rfl, by decide +kernel⟩⟩

theorem witness_AnsweredReadEndsAsIfNeverStalled :
    Instr.readBit ∈ [Instr.readBit, .readByte, .readExpGolombCode, .readUe, .readSe]
      ∧ (answering .withhold).RdReady ∧ (∀ a ∈ ([] : List PullAnswer), a = .deliver)
      ∧ (answering .withhold).source.answers = [] ++ .withhold :: []
      ∧ ∃ t, exec .readBit (answering .withhold) = .next t ∧ t.rdJob ≠ none :=
  ⟨by decide +kernel, by decide +kernel, by decide +kernel, rfl, _, rfl, by decide +kernel⟩

theorem witness_AnsweredWriteEndsAsIfNeverStalled :
    (encodeOp .flush).toNat ∈ [0x11, 0x12, 0x13, 0x14, 0x15, 0x16, 0x17]
      ∧ (accepting 0xC0 2 .withhold).WrReady ∧ (∀ a ∈ ([] : List PushAnswer), a = .accept)
      ∧ (accepting 0xC0 2 .withhold).sink.answers = [] ++ .withhold :: []
      ∧ ∃ t, exec .flush (accepting 0xC0 2 .withhold) = .next t ∧ t.wrJob ≠ none :=
  ⟨by decide +kernel, by decide +kernel, by decide +kernel, rfl, _, rfl, by decide +kernel⟩

theorem witness_WriteBitPlacesOneBit :
    Instr.writeBit 1 ∈ [Instr.writeBit (BitVec.ofBool true), Instr.writeBool true]
    ∧ (let s := writing 0 6; s.WrReady ∧ s.wr.pos ≠ 7)
    ∧ (let s := accepting 0xFE 7 .accept; s.WrReady ∧ s.wr.pos = 7 ∧ s.sink.NextAccepts)
    ∧ (let s := accepting 0xFE 7 (.fail [0xFF])
       s.WrReady ∧ s.wr.pos = 7 ∧ s.sink.answers.head? = some (.fail [0xFF])) := by decide +kernel

theorem witness_WriteBytePushesItsByte :
    (let s := writing 0xE0 3; s.WrReady ∧ s.sink.NextAccepts)
    ∧ (let s := accepting 0 0 (.fail [])
       s.WrReady ∧ s.sink.answers.head? = some (.fail [])) := by decide +kernel

theorem witness_FlushPushesThePendingByte :
    (let s := writing 0 0; s.WrReady ∧ s.wr.pos = 0)
    ∧ (let s := writing 0xC0 2; s.WrReady ∧ s.wr.pos ≠ 0 ∧ s.sink.NextAccepts)
    ∧ (let s := accepting 0xC0 2 (.fail [])
       s.WrReady ∧ s.wr.pos ≠ 0 ∧ s.sink.answers.head? = some (.fail [])) := by decide +kernel

theorem witness_FlushPadsWithZeroBits :
    let s := writing 0xFE 7
    s.WrReady ∧ s.wr.Inv ∧ s.sink.AlwaysAccepts := by decide +kernel


theorem witness_WrPreambleRefusesWhenFaulted :
    (let s := { State.reset with wr := { Wr.reset with st := .fault, fault := 0x31 } }
     s.wrJob = none ∧ s.wr.st = .fault)
    ∧ State.reset.wrJob = none ∧ State.reset.wr.st = .ready
    ∧ (∃ v, Instr.writeByte 0xAB = .writeByte v
        ∧ State.workWr (.byte 0xAB) = State.workWr (.byte v)) :=
  ⟨by decide +kernel, rfl, rfl, _, rfl, rfl⟩

theorem witness_WriteNBitsWritesTheLowBits :
    let s := writing 0x80 1
    s.WrReady ∧ s.wr.Inv ∧ s.sink.AlwaysAccepts ∧ (32 : BitVec 8).toNat ≤ 32 := by decide +kernel

theorem witness_WideFieldFaultsBeforeAnyBit :
    State.reset.WrReady ∧ 32 < (33 : BitVec 8).toNat := by decide +kernel

theorem witness_WriteUeWritesTheCode :
    let s := writing 0x80 1
    s.WrReady ∧ s.wr.Inv ∧ s.sink.AlwaysAccepts ∧ (0xFFFFFFFE : Word).toNat ≤ ueMax s.params
      ∧ 2 ^ 31 - 1 ≤ (0xFFFFFFFE : Word).toNat
      ∧ (0xFFFFFFFE : Word).toNat ≤ 2 ^ (31 + 1) - 2 := by decide +kernel

theorem witness_WriteSeWritesTheMappedCode :
    let s := writing 0x80 1
    s.WrReady ∧ s.wr.Inv ∧ s.sink.AlwaysAccepts
      ∧ ((4294967294 : Nat) : Int)
        = (if (0x80000001 : Word).toInt > 0 then 2 * (0x80000001 : Word).toInt - 1
           else -2 * (0x80000001 : Word).toInt)
      ∧ 4294967294 ≤ ueMax s.params := by decide +kernel

theorem witness_ValueOutsideTheDomainFaultsBeforeAnyBit :
    let s := State.reset
    s.WrReady ∧ ueMax s.params < (0xFFFFFFFF : Word).toNat
      ∧ ((ueMax s.params : Nat) : Int)
        < (if (0x80000000 : Word).toInt > 0 then 2 * (0x80000000 : Word).toInt - 1
           else -2 * (0x80000000 : Word).toInt) := by decide +kernel

theorem witness_FieldsConcatenate :
    (writing 0x80 1).WrReady ∧ (writing 0x80 1).sink.AlwaysAccepts
      ∧ (20 : BitVec 8).toNat + (12 : BitVec 8).toNat ≤ 32
      ∧ ∃ t u v, exec (.writeNBits (20 + 12) 0xDEADBEEF) (writing 0x80 1) = .next t
        ∧ exec (.writeNBits 20 (0xDEADBEEF >>> 12)) (writing 0x80 1) = .next u
        ∧ exec (.writeNBits 12 0xDEADBEEF) u = .next v :=
  ⟨by decide +kernel, by decide +kernel, by decide +kernel, _, _, _, rfl, rfl, rfl⟩

theorem witness_WrCommandsFrame :
    (encodeOp (.writeUe 79)).toNat ∈ [0x11, 0x12, 0x13, 0x14, 0x15, 0x16, 0x17, 0x1F]
      ∧ ∃ t, exec (.writeUe 79) (writing 0x80 1) = .next t := ⟨by decide +kernel, _, rfl⟩

theorem witness_SinkOnlyGrows :
    ∃ t, step (presented (.command 0x1300000000AB)) = .next t
      ∧ ∀ snk rest, (presented (.command 0x1300000000AB)).inputs ≠ .bindSink snk :: rest :=
  ⟨_, rfl, by simp [presented]⟩

theorem witness_CodeWriteMakesAtMostEightPushes :
    State.reset.params.Legal ∧ State.reset.sink.AlwaysAccepts
      ∧ (∃ t, exec (.writeUe 0xFFFFFFFE) State.reset = .next t)
      ∧ ∃ t, exec (.writeSe 0x80000001) State.reset = .next t :=
  ⟨by decide +kernel, by decide +kernel, ⟨_, rfl⟩, _, rfl⟩

theorem witness_CodeIsPrefixFree :
    codeBits 79 ++ [true] = codeBits 79 ++ [true]
      ∧ 2 ^ 6 - 1 ≤ 79 ∧ 79 ≤ 2 ^ (6 + 1) - 2 := by decide +kernel

theorem witness_SignedMappingIsABijection :
    -((seMax Params.standard : Nat) : Int) ≤ -2147483647
      ∧ (-2147483647 : Int) ≤ ((seMax Params.standard : Nat) : Int)
      ∧ 4294967294 ≤ ueMax Params.standard := by decide +kernel

theorem witness_WrittenUeIsReadBack :
    let s := State.reset
    s.wr = Wr.reset ∧ s.wrJob = none ∧ s.sink = { bytes := [], answers := [] }
      ∧ s.params.Legal ∧ (0xFFFFFFFE : Word).toNat ≤ ueMax s.params
      ∧ s.rd = Rd.reset ∧ s.rdJob = none ∧ s.params = s.params := by decide +kernel

theorem witness_WrittenSeIsReadBack :
    let s := State.reset
    s.wr = Wr.reset ∧ s.wrJob = none ∧ s.sink = { bytes := [], answers := [] }
      ∧ s.params.Legal ∧ -((seMax s.params : Nat) : Int) ≤ (0x80000001 : Word).toInt
      ∧ (0x80000001 : Word).toInt ≤ ((seMax s.params : Nat) : Int)
      ∧ s.rd = Rd.reset ∧ s.rdJob = none ∧ s.params = s.params := by decide +kernel

theorem witness_StartCodeTestReadsOnlyTheBuffer :
    let m := (holding property5).buf
    startCodeAt m 11 0 = 4 ∧ startCodeAt m 11 6 = 3 ∧ startCodeAt m 11 1 = 3
      ∧ startCodeAt m 3 0 = 0 ∧ (∀ a, a < 11 → m.read a = m.read a)
      ∧ findStartCode m 11 (11 - 4) 4 = some (6, 3) ∧ findStartCode m 11 (11 - 9) 9 = none := by decide +kernel


theorem witness_NsNextYieldsTheNextRange :
    State.reset.ns.st = .uninit
    ∧ (let s := scanning property5 11; s.ns.st = .ready ∧ s.ns.pos = s.ns.len)
    ∧ (let s := scanning property5 4
       s.ns.st = .ready ∧ s.ns.pos.toNat ≤ 6 ∧ 6 < s.ns.len.toNat
        ∧ startCodeAt s.scanBuf s.ns.len.toNat 6 ≠ 0
        ∧ ∀ j, j < 6 → 4 ≤ j → startCodeAt s.scanBuf s.ns.len.toNat j = 0)
    ∧ (let s := scanning property5 9
       s.ns.st = .ready ∧ s.ns.pos ≠ s.ns.len
        ∧ ∀ j, j < 11 → 9 ≤ j → startCodeAt s.scanBuf s.ns.len.toNat j = 0)
    ∧ (let s := { State.reset with ns := { Ns.reset with st := .fault, fault := 0x20 } }
       s.ns.st = .fault)
    ∧ (let s := { State.reset with ns := { Ns.reset with st := .done } }; s.ns.st = .done) := by
  decide +kernel

theorem witness_NsCommandsFrame :
    (encodeOp .nsNext).toNat ∈ [0x21, 0x22, 0x2F]
      ∧ ∃ t, exec .nsNext (scanning property5 4) = .next t := ⟨by decide +kernel, _, rfl⟩

theorem witness_ScanMovesForward :
    (scanning property5 4).ns.Inv (scanning property5 4).scanBuf
      ∧ (scanning property5 4).ns.st = .ready
      ∧ ∃ t, exec .nsNext (scanning property5 4) = .next t :=
  ⟨by decide +kernel, rfl, _, rfl⟩

theorem witness_EffectsBeforeAFaultStay :
    (let s := { writing 0x80 1 with
        sink :=
          { bytes := [], answers := List.replicate 7 PushAnswer.accept ++ PushAnswer.fail [0xFF] :: [] } }
     WritesBits s.params (.writeUe 0xFFFFFFFE) (codeBits 0xFFFFFFFE) ∧ s.WrReady ∧ s.wr.Inv
      ∧ s.sink.answers = List.replicate 7 PushAnswer.accept ++ PushAnswer.fail [0xFF] :: []
      ∧ 8 * (7 + 1) ≤ s.wr.pos.val + (codeBits 0xFFFFFFFE).length)
    ∧ (let s := { reading 0x01 8 [0x08] with
        source :=
          { bytes := [0x08], idx := 0
            answers := List.replicate 1 PullAnswer.deliver ++ PullAnswer.fail :: [] } }
     Instr.readSe ∈ [Instr.readExpGolombCode, Instr.readUe, Instr.readSe] ∧ s.RdReady
      ∧ s.source.answers = List.replicate 1 PullAnswer.deliver ++ PullAnswer.fail :: []
      ∧ s.source.idx + 1 ≤ s.source.bytes.length ∧ 15 ≤ ueMax s.params
      ∧ 8 < (codeBits 15).length
      ∧ (byteBits s.rd.cur).drop s.rd.off.val
          ++ bytesBits ((s.source.bytes.drop s.source.idx).take 1) = (codeBits 15).take 8) := by
  decide +kernel

/-- Every unit faulted, and one command presented. -/
def allFaulted (input : Input) : State :=
  { presented input with
    rd := { Rd.reset with st := .fault, fault := 0x10 }
    wr := { Wr.reset with st := .fault, fault := 0x12 }
    ns := { Ns.reset with st := .fault, fault := 0x20 } }

theorem witness_RdResetIsAlwaysAccepted :
    (reading 0x40 3 []).rdJob = none
      ∧ ∃ t, exec .rdReset (allFaulted .hardwareReset) = .next t
        ∧ (allFaulted .hardwareReset).rd.st = .fault ∧ t.rd.st ≠ .fault :=
  ⟨rfl, _, rfl, rfl, by decide +kernel⟩

theorem witness_WrResetIsAlwaysAccepted :
    (writing 0x80 1).wrJob = none
      ∧ ∃ t, exec .wrReset (allFaulted .hardwareReset) = .next t
        ∧ (allFaulted .hardwareReset).wr.st = .fault ∧ t.wr.st ≠ .fault :=
  ⟨rfl, _, rfl, rfl, by decide +kernel⟩

theorem witness_NsInitChecksThePrefix :
    (startCodeAt (holding property5).buf (4 : Word).toNat 0 ≠ 0
      ∧ startCodeAt (holding property5).buf (3 : Word).toNat 0 = 0)
    ∧ ∃ t, exec .nsReset (allFaulted .hardwareReset) = .next t
        ∧ (allFaulted .hardwareReset).ns.st = .fault ∧ t.ns.st ≠ .fault :=
  ⟨by decide +kernel, _, rfl, rfl, by decide +kernel⟩

theorem witness_OnlyAResetLeavesAFault :
    ∃ t, step (allFaulted .hardwareReset) = .next t
      ∧ t.rd.st ≠ .fault ∧ t.wr.st ≠ .fault ∧ t.ns.st ≠ .fault :=
  ⟨_, rfl, by decide +kernel, by decide +kernel, by decide +kernel⟩

theorem witness_FirstCauseIsKept :
    ∃ t, exec .flush (allFaulted .hardwareReset) = .next t ∧ Instr.flush ≠ .rdReset
      ∧ Instr.flush ≠ .wrReset ∧ Instr.flush ≠ .nsReset ∧ ∀ len, Instr.flush ≠ .nsInit len :=
  ⟨_, rfl, by decide +kernel, by decide +kernel, by decide +kernel, by simp⟩

theorem witness_EveryStatusIsListed :
    ∃ t, step (presented (.command 0)) = .next t := ⟨_, rfl⟩

theorem witness_CommandsEndInFourWays :
    ∃ t, step (presented (.command 0x142100000000)) = .next t ∧ t.wr.fault = 0x32 :=
  ⟨_, rfl, by decide +kernel⟩

theorem witness_AnswersDependOnTheOwnUnitAlone :
    let s := State.reset
    (let s' := writing 0x80 1
     s'.responses = s.responses ∧ s'.freeIdx = s.freeIdx ∧ unitOf .readUe = .rd
      ∧ s'.params = s.params ∧ s'.rd = s.rd ∧ s'.rdJob = s.rdJob ∧ s'.source = s.source)
    ∧ (let s' := reading 0x40 3 [0xA5]
     s'.responses = s.responses ∧ s'.freeIdx = s.freeIdx ∧ unitOf .flush = .wr
      ∧ s'.params = s.params ∧ s'.wr = s.wr ∧ s'.wrJob = s.wrJob ∧ s'.sink = s.sink
      ∧ unitOf .nsNext = .ns ∧ s'.ns = s.ns ∧ s'.buf = s.buf ∧ s'.scanBuf = s.scanBuf) := by
  decide +kernel

theorem witness_AnswersDependOnTheOwnUnitAlone_next :
    (∃ t, exec .readUe State.reset = .next t) ∧ (∃ t, exec .flush State.reset = .next t)
      ∧ ∃ t, exec .nsNext State.reset = .next t := ⟨⟨_, rfl⟩, ⟨_, rfl⟩, _, rfl⟩

theorem witness_EveryStepKeepsTheInvariant :
    (presented (.command 0x150000000005)).Inv
      ∧ ∃ t, step (presented (.command 0x150000000005)) = .next t :=
  ⟨⟨by decide +kernel, by decide +kernel, by decide +kernel, by decide +kernel, by decide +kernel,
    by decide +kernel, by decide +kernel, by simp [presented, State.reset],
    by simp [presented, State.reset]⟩, _, rfl⟩

theorem witness_NoStepChangesTheParameter :
    ∃ t, step (presented (.command 0x220000000000)) = .next t := ⟨_, rfl⟩

end Sys2Proof.Tests
end

namespace Sys2Proof.Machine

/-! ### What the three reset commands and hardware reset leave -/

/-- `rd_reset` is answered unless an RD command waits, and changes RD's registers alone (R116). -/
theorem exec_rdReset_next {s t : State} :
    exec .rdReset s = .next t ↔
      s.rdJob = none ∧ t = { s with rd := Rd.reset, responses := s.plus 0x00 0 0 } :=
  rdUnlessBusy_next (body := fun s => (s.resetUnit .rd).respond .ok 0 0)

/-- `wr_reset` is answered unless a WR command waits, and changes WR's registers alone (R140). -/
theorem exec_wrReset_next {s t : State} :
    exec .wrReset s = .next t ↔
      s.wrJob = none ∧ t = { s with wr := Wr.reset, responses := s.plus 0x00 0 0 } :=
  wrUnlessBusy_next (body := fun s => (s.resetUnit .wr).respond .ok 0 0)

/-- `ns_reset` is answered in every state and changes NS's registers alone (R164). -/
theorem exec_nsReset (s : State) :
    exec .nsReset s = .next { s with ns := Ns.reset, responses := s.plus 0x00 0 0 } := rfl

/-- The step that takes hardware reset resets every unit and aborts what waits (R220). -/
theorem step_of_hardwareReset {s : State} {rest : List Input}
    (h : s.inputs = .hardwareReset :: rest) :
    step s = .next (State.hardwareReset { s with inputs := rest }) := by
  simp only [step, h, takeInput]

/-- Settles O9: the tabled values are those of `State.reset`, and each reset puts them back in the
registers it is for. -/
theorem resetValues : Obligations.ResetValues := by
  refine ⟨⟨rfl, rfl, rfl⟩, fun s t => ⟨fun h => ?rdReset, fun h => ?wrReset, fun h => ?nsReset,
    fun rest hin h => ?hardwareReset⟩⟩
  case rdReset =>
    obtain ⟨-, rfl⟩ := exec_rdReset_next.1 h
    rfl
  case wrReset =>
    obtain ⟨-, rfl⟩ := exec_wrReset_next.1 h
    rfl
  case nsReset =>
    cases (exec_nsReset s).symm.trans h
    rfl
  case hardwareReset =>
    cases (step_of_hardwareReset hin).symm.trans h
    exact ⟨rfl, rfl, rfl⟩

end Sys2Proof.Machine

namespace Sys2Proof

/-! ### A decoded word fits a row of the opcode table -/

/-- The table has a row for opcode `op` that fixes every bit of the word from bit `free` up, the
bits below the opcode at zero. -/
abbrev HasRow (op free : Nat) : Prop :=
  ∃ r ∈ opcodeTable, r.pattern = BitVec.ofNat 8 op ++ 0#40 ∧ r.mask = BitVec.allOnes 48 <<< free

/-- Masking off the low `free` bits leaves the opcode alone when the bits between are zero. -/
theorem mask_eq_opField {w : Command} {free : Nat} (hfree : free ≤ 40)
    (hzero : ∀ k, free ≤ k → k < 40 → w.getLsbD k = false) :
    w &&& BitVec.allOnes 48 <<< free = opField w ++ 0#40 := by
  refine BitVec.eq_of_getLsbD_eq fun k hk => ?_
  simp only [BitVec.getLsbD_and, BitVec.getLsbD_shiftLeft, BitVec.getLsbD_allOnes,
    BitVec.getLsbD_append, opField, BitVec.getLsbD_extractLsb', BitVec.getLsbD_zero]
  by_cases hop : k < 40
  · by_cases hlow : k < free
    · simp [hop, hlow]
    · simp [hop, hzero k (by omega) hop]
  · have hadd : 40 + (k - 40) = k := by omega
    simp [hop, hk, hadd, show ¬ k < free by omega, show k - free < 48 by omega,
      show k - 40 < 8 by omega]

/-- A word with the opcode of a row, and zero in every other bit the row fixes, is well formed. -/
theorem wellFormedWord_of_hasRow {w : Command} {op free : Nat} (hrow : HasRow op free)
    (hop : (opField w).toNat = op) (hfree : free ≤ 40)
    (hzero : ∀ k, free ≤ k → k < 40 → w.getLsbD k = false) : wellFormedWord w = true := by
  obtain ⟨r, hr, hpattern, hmask⟩ := hrow
  have hfits : r.fits w = true := by
    rw [TableRow.fits, beq_iff_eq, hmask, hpattern, ← hop, BitVec.ofNat_toNat,
      BitVec.setWidth_eq, mask_eq_opField hfree hzero]
  exact List.any_eq_true.2 ⟨r, hr, hfits⟩

/-- What `decodeOperand` accepts has a zero count and no operand bit above its width (R93). -/
theorem decodeOperand_eq_instr {w : Command} {width : Nat} {i j : Instr}
    (h : decodeOperand w width i = .instr j) :
    countField w = 0 ∧ immField w >>> width = 0 ∧ i = j := by
  unfold decodeOperand at h
  split at h
  · cases h
  · next hn =>
    split at h
    · cases h
    · next hi => exact ⟨not_not.1 hn, not_not.1 hi, Decoded.instr.inj h⟩

/-- With a zero count and no operand bit above `width`, the bits from `width` up to the opcode are
zero. -/
theorem getLsbD_eq_false_of_fields {w : Command} {width : Nat} (hn : countField w = 0)
    (hi : immField w >>> width = 0) {k : Nat} (hk : width ≤ k) (hop : k < 40) :
    w.getLsbD k = false := by
  by_cases himm : k < 32
  · have := congrArg (BitVec.getLsbD · (k - width)) hi
    simpa [immField, Nat.add_sub_cancel' hk, himm] using this
  · have := congrArg (BitVec.getLsbD · (k - 32)) hn
    simpa [countField, Nat.add_sub_cancel' (not_lt.1 himm), show k - 32 < 8 by omega] using this

/-- A word that `decodeOperand` accepts is well formed, when the table has a row for its opcode
that leaves the operand's bits free. -/
theorem wellFormedWord_of_decodeOperand {w : Command} {op width : Nat} {i j : Instr}
    (hop : (opField w).toNat = op) (hrow : HasRow op width) (hwidth : width ≤ 40)
    (h : decodeOperand w width i = .instr j) : wellFormedWord w = true := by
  obtain ⟨hn, hi, -⟩ := decodeOperand_eq_instr h
  exact wellFormedWord_of_hasRow hrow hop hwidth fun _ => getLsbD_eq_false_of_fields hn hi

/-- The decoder accepts no word outside the table (R92, R96). -/
theorem wellFormedWord_of_decode {w : Command} {i : Instr} (h : decode w = .instr i) :
    wellFormedWord w = true := by
  unfold decode at h
  split at h
  -- `write_n_bits` fixes its opcode alone.
  case h_10 hop => exact wellFormedWord_of_hasRow (free := 40) (by decide) hop le_rfl (by omega)
  case h_18 => cases h
  all_goals
    next hop => exact wellFormedWord_of_decodeOperand hop (by decide) (by decide) h

/-- A word outside the table is decoded as illegal. -/
theorem decode_eq_illegal_of_not_wellFormedWord {w : Command} (h : wellFormedWord w = false) :
    ∃ why, decode w = .illegal why := by
  cases hd : decode w with
  | instr i => exact absurd (wellFormedWord_of_decode hd) (by simp [h])
  | illegal why => exact ⟨why, rfl⟩

end Sys2Proof

namespace Sys2Proof.Machine

/-- The step that takes an illegal word answers it (R96). -/
theorem step_of_illegal {s : State} {w : Command} {rest : List Input} {why : Illegal}
    (h : s.inputs = .command w :: rest) (hd : decode w = .illegal why) :
    step s = .next (State.answerIllegal w { s with inputs := rest }) := by
  simp only [step, h, takeInput, takeCommand, hd]

/-- Answering an illegal word appends one response and changes nothing else (R96). -/
theorem answerIllegal_eq (w : Command) (s : State) :
    s.answerIllegal w = { s with responses := s.plus 0x7F ((opField w).setWidth 32) 0 } := rfl

/-- Settles O4: a word outside the table decodes as illegal, and the step that takes such a word
answers it and does nothing else. -/
theorem illegalWordIsAnsweredAndChangesNothing :
    Obligations.IllegalWordIsAnsweredAndChangesNothing := by
  intro s w rest hin hw
  obtain ⟨why, hd⟩ := decode_eq_illegal_of_not_wellFormedWord hw
  rw [step_of_illegal hin hd, answerIllegal_eq]
  rfl

end Sys2Proof.Machine

namespace Sys2Proof.Machine

/-! ### The RD commands and their preamble -/

/-- The RD commands with a preamble, each with the work it does when RD is ready (R111 to R115). -/
def readJobs : List (Instr × RdJob) :=
  [(.readBit, .bit), (.readByte, .byte), (.readExpGolombCode, .zeros .unsigned 0),
    (.readUe, .zeros .unsigned 0), (.readSe, .zeros .signed 0)]

/-- A read is its work behind the preamble (R117). -/
theorem exec_of_mem_readJobs {i : Instr} {job : RdJob} (h : (i, job) ∈ readJobs) (s : State) :
    exec i s = rdPreamble (State.workRd job) s := by
  simp only [readJobs, List.mem_cons, Prod.mk.injEq, List.not_mem_nil, or_false] at h
  obtain ⟨rfl, rfl⟩ | ⟨rfl, rfl⟩ | ⟨rfl, rfl⟩ | ⟨rfl, rfl⟩ | ⟨rfl, rfl⟩ := h <;> rfl

/-- Every RD command but its reset is a read (R92). -/
theorem exists_mem_readJobs {i : Instr} (hu : unitOf i = .rd) (hi : i ≠ .rdReset) :
    ∃ job, (i, job) ∈ readJobs := by
  cases i <;> simp_all [unitOf, readJobs]

/-- Settles O18: both commands are the same work behind the same preamble. -/
theorem readUeIsReadExpGolombCode : Obligations.ReadUeIsReadExpGolombCode :=
  ⟨by decide, fun s =>
    (exec_of_mem_readJobs (i := .readUe) (job := .zeros .unsigned 0) (by decide) s).trans
      (exec_of_mem_readJobs (by decide) s).symm⟩

/-- Settles O19, from the two ends of the preamble. -/
theorem rdPreambleRefusesWhenFaulted : Obligations.RdPreambleRefusesWhenFaulted := by
  intro s i job hi hjob
  rw [exec_of_mem_readJobs hi]
  refine ⟨fun hfault => ?_, fun hready => rdPreamble_ready ⟨hready, hjob⟩⟩
  exact rdPreamble_next.2 ⟨hjob, .inl ⟨hfault, refuseFaulted_eq s s.rd.fault⟩⟩

/-! ### What the commands of WR and NS leave alone -/

/-- A WR command leaves alone what its body leaves alone. -/
theorem onlyWr_of_wrPreamble {body : State → State} {s t : State} (hbody : OnlyWr s (body s))
    (h : wrPreamble body s = .next t) : OnlyWr s t := by
  obtain ⟨-, ⟨-, rfl⟩ | ⟨-, rfl⟩⟩ := wrPreamble_next.1 h
  · simp [OnlyWr]
  · exact hbody

/-- A fault of WR touches WR and the responses only (R190). -/
theorem raise_onlyWr (s : State) (cause : Status) (info : Word) :
    OnlyWr s (s.raise .wr cause info) := by
  simp [OnlyWr]

/-- WR work touches WR, its sink and the responses only (R31). -/
theorem workWr_onlyWr (s : State) (job : WrJob) : OnlyWr s (s.workWr job) :=
  endWr_onlyWr s (runWr job s.wr s.sink)

/-- Writing a code touches WR, its sink and the responses only, in its domain or not (R137). -/
theorem writeCode_onlyWr (s : State) (code : Nat) (info : Word) :
    OnlyWr s (s.writeCode code info) := by
  unfold State.writeCode
  split
  · exact raise_onlyWr s _ info
  · exact workWr_onlyWr s _

/-- A WR command touches WR, its sink and the responses only (R31). -/
theorem exec_onlyWr {s t : State} {i : Instr} (hu : unitOf i = .wr) (h : exec i s = .next t) :
    OnlyWr s t := by
  cases i with
  | writeBit b => exact onlyWr_of_wrPreamble (workWr_onlyWr s _) h
  | writeBool b => exact onlyWr_of_wrPreamble (workWr_onlyWr s _) h
  | writeByte v => exact onlyWr_of_wrPreamble (workWr_onlyWr s _) h
  | writeNBits n value =>
    simp only [exec, execWriteNBits] at h
    refine onlyWr_of_wrPreamble ?_ h
    split
    · exact raise_onlyWr s _ _
    · exact workWr_onlyWr s _
  | writeUe value => exact onlyWr_of_wrPreamble (writeCode_onlyWr s _ value) h
  | writeSe value => exact onlyWr_of_wrPreamble (writeCode_onlyWr s _ value) h
  | flush => exact onlyWr_of_wrPreamble (workWr_onlyWr s _) h
  | wrReset =>
    obtain ⟨-, rfl⟩ := exec_wrReset_next.1 h
    simp [OnlyWr]
  | _ => cases hu

/-- `ns_init` touches NS and the responses only, whether a scan begins or not (R162). -/
theorem beginScan_onlyNs (s : State) (len : Word) : OnlyNs s (s.beginScan len) := by
  obtain ⟨-, h⟩ | ⟨-, ⟨-, -, -, h⟩, -⟩ := beginScan_cases s len
  · simp [OnlyNs, h]
  · exact h

/-- A unit taken from the scan touches NS and the responses only (R163). -/
theorem nextUnit_onlyNs (s : State) : OnlyNs s s.nextUnit := by
  unfold State.nextUnit
  dsimp only
  split
  · simp [OnlyNs]
  · split <;> simp [OnlyNs]

/-- An NS command touches NS and the responses only (R31). -/
theorem exec_onlyNs {s t : State} {i : Instr} (hu : unitOf i = .ns) (h : exec i s = .next t) :
    OnlyNs s t := by
  cases i with
  | nsInit len =>
    cases h
    exact beginScan_onlyNs s len
  | nsNext =>
    obtain ⟨-, rfl⟩ | ⟨-, rfl⟩ | ⟨-, rfl⟩ | ⟨-, rfl⟩ := nsPreamble_next.1 h
    · simp [OnlyNs]
    · simp [OnlyNs]
    · simp [OnlyNs]
    · exact nextUnit_onlyNs s
  | nsReset =>
    cases (exec_nsReset s).symm.trans h
    simp [OnlyNs]
  | _ => cases hu

/-! ### The way out of RD's fault -/

/-- No command but `rd_reset` changes a register of a faulted RD (R116, R117). -/
theorem exec_keeps_rd_of_fault {s t : State} {i : Instr} (hfault : s.rd.st = .fault)
    (hi : i ≠ .rdReset) (h : exec i s = .next t) : t.rd = s.rd := by
  cases hu : unitOf i with
  | rd =>
    obtain ⟨job, hjob⟩ := exists_mem_readJobs hu hi
    rw [exec_of_mem_readJobs hjob] at h
    obtain ⟨-, ⟨-, rfl⟩ | ⟨hready, -⟩⟩ := rdPreamble_next.1 h
    · rfl
    · cases hfault.symm.trans hready
  | wr =>
    obtain ⟨-, hrd, -⟩ := exec_onlyWr hu h
    exact hrd
  | ns =>
    obtain ⟨-, hrd, -⟩ := exec_onlyNs hu h
    exact hrd

/-- Settles O20: `rd_reset` has no test of RD's status, and every other command keeps RD's fault. -/
theorem rdResetIsAlwaysAccepted : Obligations.RdResetIsAlwaysAccepted := by
  refine ⟨by decide, fun s hjob => exec_rdReset_next.2 ⟨hjob, rfl⟩, ?_⟩
  intro s t i hfault h hleft
  by_contra hi
  exact hleft (exec_keeps_rd_of_fault hfault hi h ▸ hfault)

end Sys2Proof.Machine

namespace Sys2Proof.Machine

/-! ### The WR commands and their preamble -/

/-- The work of a WR command with a preamble, done when WR is ready (R132 to R139). -/
def writeBody : Instr → Option (State → State)
  | .writeBit b => some (State.workWr (.bits [b.getLsbD 0]))
  | .writeBool b => some (State.workWr (.bits [b]))
  | .writeByte v => some (State.workWr (.byte v))
  | .writeNBits n value => some fun s =>
      if n.toNat > nMax then s.raise .wr .badWidth (n.setWidth 32)
      else s.workWr (.bits (fieldBits n.toNat value.toNat))
  | .writeUe value => some (State.writeCode value.toNat value)
  | .writeSe value => some (State.writeCode (signedToCode value.toInt) value)
  | .flush => some (State.workWr .flush)
  | .wrReset | .readBit | .readByte | .readExpGolombCode | .readUe | .readSe | .rdReset
  | .nsInit _ | .nsNext | .nsReset => none

/-- A write is its work behind the preamble (R131). -/
theorem exec_of_writeBody {i : Instr} {body : State → State} (h : writeBody i = some body)
    (s : State) : exec i s = wrPreamble body s := by
  cases i <;> cases h <;> rfl

/-- Every WR command but its reset has a preamble (R131). -/
theorem exists_writeBody {i : Instr} (hu : unitOf i = .wr) (hi : i ≠ .wrReset) :
    ∃ body, writeBody i = some body := by
  cases i <;> simp_all [unitOf, writeBody]

/-- A ready WR does the work of a write. -/
theorem exec_of_wrReady {i : Instr} {body : State → State} {s : State}
    (hi : writeBody i = some body) (hready : s.WrReady) : exec i s = .next (body s) :=
  (exec_of_writeBody hi s).trans (wrPreamble_ready hready)

/-- Settles O31, from the two ends of the preamble. -/
theorem wrPreambleRefusesWhenFaulted : Obligations.WrPreambleRefusesWhenFaulted := by
  intro s i work hi hjob
  have hbody : writeBody i = some work := by
    obtain ⟨b, rfl, rfl⟩ | ⟨b, rfl, rfl⟩ | ⟨v, rfl, rfl⟩ | ⟨n, v, rfl, rfl⟩ | ⟨v, rfl, rfl⟩
      | ⟨v, rfl, rfl⟩ | ⟨rfl, rfl⟩ := hi <;> rfl
  refine ⟨fun hfault => ?_, fun hready => exec_of_wrReady hbody ⟨hready, hjob⟩⟩
  rw [exec_of_writeBody hbody]
  exact wrPreamble_next.2 ⟨hjob, .inl ⟨hfault, refuseFaulted_eq s s.wr.fault⟩⟩

/-! ### What the commands of RD leave alone -/

/-- An RD command touches RD, its source and the responses only (R31). -/
theorem exec_onlyRd {s t : State} {i : Instr} (hu : unitOf i = .rd) (h : exec i s = .next t) :
    OnlyRd s t := by
  by_cases hi : i = .rdReset
  · subst hi
    obtain ⟨-, rfl⟩ := exec_rdReset_next.1 h
    simp [OnlyRd]
  · obtain ⟨job, hjob⟩ := exists_mem_readJobs hu hi
    rw [exec_of_mem_readJobs hjob] at h
    obtain ⟨-, ⟨-, rfl⟩ | ⟨-, rfl⟩⟩ := rdPreamble_next.1 h
    · simp [OnlyRd]
    · exact endRd_onlyRd s (runRd s.params job s.rd s.source)

/-! ### The way out of WR's fault -/

/-- No command but `wr_reset` changes a register of a faulted WR (R131, R140). -/
theorem exec_keeps_wr_of_fault {s t : State} {i : Instr} (hfault : s.wr.st = .fault)
    (hi : i ≠ .wrReset) (h : exec i s = .next t) : t.wr = s.wr := by
  cases hu : unitOf i with
  | rd =>
    obtain ⟨-, hwr, -⟩ := exec_onlyRd hu h
    exact hwr
  | wr =>
    obtain ⟨body, hbody⟩ := exists_writeBody hu hi
    rw [exec_of_writeBody hbody] at h
    obtain ⟨-, ⟨-, rfl⟩ | ⟨hready, -⟩⟩ := wrPreamble_next.1 h
    · rfl
    · cases hfault.symm.trans hready
  | ns =>
    obtain ⟨-, -, hwr, -⟩ := exec_onlyNs hu h
    exact hwr

/-- Settles O30: `wr_reset` has no test of WR's status, and every other command keeps WR's fault. -/
theorem wrResetIsAlwaysAccepted : Obligations.WrResetIsAlwaysAccepted := by
  refine ⟨by decide, fun s hjob => exec_wrReset_next.2 ⟨hjob, rfl⟩, ?_⟩
  intro s t i hfault h hleft
  by_contra hi
  exact hleft (exec_keeps_wr_of_fault hfault hi h ▸ hfault)

/-! ### WR work that comes to one push -/

theorem pushAndEmpty_of_fail {job : WrJob} {b : Byte} {wr : Wr} {snk : Sink} {left : List Byte}
    (h : snk.answers.head? = some (.fail left)) :
    pushAndEmpty job b wr snk
      = .raised .snkIo 0 { bytes := snk.bytes ++ left, answers := snk.answers.tail } := by
  simp [pushAndEmpty, push_of_fail h]

/-- Work that completes answers OK with no result (R94). -/
theorem workWr_of_done {s : State} {job : WrJob} {wr : Wr} {snk : Sink} (hjob : s.wrJob = none)
    (hrun : runWr job s.wr s.sink = .done wr snk) :
    s.workWr job = { s with wr := wr, sink := snk, responses := s.plus 0x00 0 0 } := by
  rw [State.workWr, hrun, endWr_done, ← hjob]

/-- Work that comes to a push the sink accepts leaves no bit pending (R130). -/
theorem workWr_of_push_accepted {s : State} {job waiting : WrJob} {b : Byte} {wr : Wr}
    (hjob : s.wrJob = none) (hrun : runWr job s.wr s.sink = pushAndEmpty waiting b wr s.sink)
    (h : s.sink.NextAccepts) :
    s.workWr job
      = { s with wr := wr.emptied, sink := s.sink.appended b, responses := s.plus 0x00 0 0 } :=
  workWr_of_done hjob (hrun.trans (pushAndEmpty_accepts h))

/-- Work that comes to a push the sink fails faults with `SNK_IO` (R55, R190). -/
theorem workWr_of_push_failed {s : State} {job waiting : WrJob} {b : Byte} {wr : Wr}
    {left : List Byte} (hrun : runWr job s.wr s.sink = pushAndEmpty waiting b wr s.sink)
    (h : s.sink.answers.head? = some (.fail left)) : WrFaulted s (s.workWr job) 0x12 0 := by
  rw [State.workWr, hrun, pushAndEmpty_of_fail h, endWr_raised]
  simp [WrFaulted, OnlyWr, Status.code, State.plus]

/-! ### One bit, one byte, the pending byte -/

/-- A bit is or-ed into `WR.acc` at bit `7 - WR.pos` (R130). -/
theorem placeBit_eq (wr : Wr) (b : Bool) :
    wr.placeBit b = wr.acc ||| ((if b then 1 else 0 : Byte) <<< (7 - wr.pos.val)) := by
  cases b <;> rfl

/-- Writing one bit is one `WriteBit` (R132). -/
theorem writeBits_singleton (b : Bool) (wr : Wr) (snk : Sink) :
    writeBits [b] wr snk = writeBit (.bits [b]) b wr snk := by
  rw [writeBits]
  cases writeBit (.bits [b]) b wr snk <;> rfl

/-- `write_bit` and `write_bool` write the one bit of their operand (R132, R133). -/
theorem writeBody_of_mem_bitWrites {i : Instr} {b : Bool}
    (hi : i ∈ [Instr.writeBit (BitVec.ofBool b), Instr.writeBool b]) :
    writeBody i = some (State.workWr (.bits [b])) := by
  simp only [List.mem_cons, List.not_mem_nil, or_false] at hi
  obtain rfl | rfl := hi
  · simp [writeBody]
  · rfl

/-- Settles O26: below position 7 the bit is placed, at 7 the filled byte is pushed. -/
theorem writeBitPlacesOneBit : Obligations.WriteBitPlacesOneBit := by
  refine ⟨by decide, by decide, fun s i b hi hready => ?_⟩
  rw [exec_of_wrReady (writeBody_of_mem_bitWrites hi) hready]
  have hrun : runWr (.bits [b]) s.wr s.sink = writeBit (.bits [b]) b s.wr s.sink :=
    writeBits_singleton b s.wr s.sink
  refine ⟨fun hpos => ?below, fun hpos haccepts => ?accepted, fun left hpos hfail => ?failed⟩
  case below =>
    rw [workWr_of_done hready.2 (hrun.trans (writeBit_below hpos)), placeBit_eq]
  case accepted =>
    rw [workWr_of_push_accepted hready.2 (hrun.trans (writeBit_last hpos)) haccepts, placeBit_eq,
      hpos]
    simp [Wr.emptied]
  case failed =>
    exact ⟨_, rfl, workWr_of_push_failed (hrun.trans (writeBit_last hpos)) hfail⟩

/-- Settles O27: the byte is pushed with the pending bits already dropped, whatever `WR.pos`. -/
theorem writeBytePushesItsByte : Obligations.WriteBytePushesItsByte := by
  refine ⟨by decide, fun s v hready => ?_⟩
  rw [exec_of_wrReady (body := State.workWr (.byte v)) rfl hready]
  have hrun : runWr (.byte v) s.wr s.sink = pushAndEmpty (.byte v) v s.wr.emptied s.sink := rfl
  refine ⟨fun haccepts => ?accepted, fun left hfail => ?failed⟩
  case accepted =>
    rw [workWr_of_push_accepted hready.2 hrun haccepts]
    rfl
  case failed =>
    exact ⟨_, rfl, workWr_of_push_failed hrun hfail⟩

/-- With no bit pending `flush` does nothing (R139). -/
theorem flushBits_of_aligned {wr : Wr} {snk : Sink} (h : wr.pos = 0) :
    flushBits wr snk = .done wr snk := if_pos h

/-- With a bit pending `flush` pushes the partial byte (R139). -/
theorem flushBits_of_pending {wr : Wr} {snk : Sink} (h : wr.pos ≠ 0) :
    flushBits wr snk = pushAndEmpty .flush wr.acc wr snk := if_neg h

/-- Settles O28: nothing at position 0, one push of `WR.acc` at any other. -/
theorem flushPushesThePendingByte : Obligations.FlushPushesThePendingByte := by
  refine ⟨by decide, fun s hready => ?_⟩
  rw [exec_of_wrReady (body := State.workWr .flush) rfl hready]
  exact ⟨fun hpos => congrArg _ (workWr_of_done hready.2 (flushBits_of_aligned hpos)),
    fun hpos haccepts => congrArg _
      (workWr_of_push_accepted hready.2 (flushBits_of_pending hpos) haccepts),
    fun left hpos hfail => ⟨_, rfl, workWr_of_push_failed (flushBits_of_pending hpos) hfail⟩⟩

end Sys2Proof.Machine

namespace Sys2Proof.Machine

/-! ### The start-code test and its search -/

/-- The test answers 4 exactly at the longer pattern (R161). -/
theorem startCodeAt_eq_four_iff {m : Memory} {len i : Nat} :
    startCodeAt m len i = 4 ↔ i + 4 ≤ len ∧ m.read i = 0x00 ∧ m.read (i + 1) = 0x00
      ∧ m.read (i + 2) = 0x00 ∧ m.read (i + 3) = 0x01 := by
  unfold startCodeAt
  split
  · next h4 => exact iff_of_true rfl h4
  · next h4 => exact iff_of_false (by split <;> decide) h4

/-- The test answers 3 exactly at the shorter pattern: the two differ in the byte at `i + 2`
(R161). -/
theorem startCodeAt_eq_three_iff {m : Memory} {len i : Nat} :
    startCodeAt m len i = 3 ↔ i + 3 ≤ len ∧ m.read i = 0x00 ∧ m.read (i + 1) = 0x00
      ∧ m.read (i + 2) = 0x01 := by
  unfold startCodeAt
  split
  · next h4 =>
    obtain ⟨-, -, -, hzero, -⟩ := h4
    refine iff_of_false (by decide) fun ⟨_, _, _, hone⟩ => ?_
    exact absurd (hzero.symm.trans hone) (by decide)
  · split
    · next h3 => exact iff_of_true rfl h3
    · next h3 => exact iff_of_false (by decide) h3

/-- The test has three answers (R161). -/
theorem startCodeAt_values (m : Memory) (len i : Nat) :
    startCodeAt m len i = 0 ∨ startCodeAt m len i = 3 ∨ startCodeAt m len i = 4 := by
  unfold startCodeAt
  split
  · exact .inr (.inr rfl)
  · split
    · exact .inr (.inl rfl)
    · exact .inl rfl

/-- The test reads nothing at or beyond the end of the buffer (R161). -/
theorem startCodeAt_congr {m m' : Memory} {len : Nat}
    (h : ∀ a, a < len → m.read a = m'.read a) (i : Nat) :
    startCodeAt m len i = startCodeAt m' len i := by
  have four : startCodeAt m len i = 4 ↔ startCodeAt m' len i = 4 := by
    rw [startCodeAt_eq_four_iff, startCodeAt_eq_four_iff]
    refine and_congr_right fun hlen => ?_
    rw [h i (by omega), h (i + 1) (by omega), h (i + 2) (by omega), h (i + 3) (by omega)]
  have three : startCodeAt m len i = 3 ↔ startCodeAt m' len i = 3 := by
    rw [startCodeAt_eq_three_iff, startCodeAt_eq_three_iff]
    refine and_congr_right fun hlen => ?_
    rw [h i (by omega), h (i + 1) (by omega), h (i + 2) (by omega)]
  have hm := startCodeAt_values m len i
  have hm' := startCodeAt_values m' len i
  omega

/-- The search finds the first start code of those it looks at (R161). -/
theorem findStartCode_of_first {m : Memory} {len left i j : Nat} (hij : i ≤ j) (hj : j < i + left)
    (hcode : startCodeAt m len j ≠ 0) (hfirst : ∀ k, i ≤ k → k < j → startCodeAt m len k = 0) :
    findStartCode m len left i = some (j, startCodeAt m len j) := by
  cases hf : findStartCode m len left i with
  | none => exact absurd (findStartCode_none hf j hij hj) hcode
  | some found =>
    obtain ⟨j', c⟩ := found
    obtain ⟨hij', -, rfl, hcode', hfirst'⟩ := findStartCode_some hf
    obtain hlt | rfl | hgt := lt_trichotomy j j'
    · exact absurd (hfirst' j hij hlt) hcode
    · rfl
    · exact absurd (hfirst j' hij' hgt) hcode'

/-- The search finds nothing where no start code begins (R163). -/
theorem findStartCode_of_no_code {m : Memory} {len left i : Nat}
    (h : ∀ k, i ≤ k → k < i + left → startCodeAt m len k = 0) :
    findStartCode m len left i = none := by
  cases hf : findStartCode m len left i with
  | none => rfl
  | some found =>
    obtain ⟨j, c⟩ := found
    obtain ⟨hij, hj, rfl, hcode, -⟩ := findStartCode_some hf
    exact absurd (h j hij hj) hcode

/-- Settles O45, from the two patterns and the two ends of the search. -/
theorem startCodeTestReadsOnlyTheBuffer : Obligations.StartCodeTestReadsOnlyTheBuffer := by
  intro m m' len i
  refine ⟨startCodeAt_eq_four_iff, startCodeAt_eq_three_iff, startCodeAt_values m len i,
    fun h => startCodeAt_congr h i, fun j c hf => ?found, fun hf x hix hx => ?notFound⟩
  case found =>
    obtain ⟨hij, hj, hc, hcode, hfirst⟩ := findStartCode_some hf
    exact ⟨hij, by omega, hc, hcode, hfirst⟩
  case notFound =>
    exact findStartCode_none hf x hix (by omega)

/-! ### The next unit of a scan -/

/-- At the end of the buffer the sequence ends (R163). -/
theorem nextUnit_at_end {s : State} (h : s.ns.pos = s.ns.len) :
    s.nextUnit
      = { s with ns := { s.ns with st := .done }, responses := s.plus 0x01 0 0 } := if_pos h

/-- A search that finds a start code yields the range up to it (R163). -/
theorem nextUnit_of_found {s : State} {i c : Nat} (hpos : s.ns.pos ≠ s.ns.len)
    (h : findStartCode s.scanBuf s.ns.len.toNat (s.ns.len.toNat - s.ns.pos.toNat) s.ns.pos.toNat
      = some (i, c)) :
    s.nextUnit = { s with
      ns := { s.ns with pos := BitVec.ofNat 32 (i + c) }
      responses := s.plus 0x00 s.ns.pos (BitVec.ofNat 32 i) } := by
  simp only [State.nextUnit, if_neg hpos, h]
  rfl

/-- A search that finds none yields the range up to the end of the buffer (R163). -/
theorem nextUnit_of_none {s : State} (hpos : s.ns.pos ≠ s.ns.len)
    (h : findStartCode s.scanBuf s.ns.len.toNat (s.ns.len.toNat - s.ns.pos.toNat) s.ns.pos.toNat
      = none) :
    s.nextUnit = { s with
      ns := { s.ns with pos := s.ns.len }
      responses := s.plus 0x00 s.ns.pos s.ns.len } := by
  simp only [State.nextUnit, if_neg hpos, h]
  rfl

/-- A ready NS takes the next unit of its scan (R163). -/
theorem exec_nsNext_ready {s : State} (h : s.ns.st = .ready) :
    exec .nsNext s = .next s.nextUnit :=
  nsPreamble_next.2 (.inr (.inr (.inr ⟨h, rfl⟩)))

/-- Settles O47: the preamble answers in the other states, the search decides in `READY`. -/
theorem nsNextYieldsTheNextRange : Obligations.NsNextYieldsTheNextRange := by
  refine ⟨by decide, fun s => ⟨fun hst => ?uninit, fun hst => ?fault, fun hst => ?done,
    fun hst hend => ?atEnd, fun i hst hpos hi hcode hfirst => ?found,
    fun hst hpos hnone => ?notFound⟩⟩
  case uninit => exact nsPreamble_next.2 (.inl ⟨hst, rfl⟩)
  case fault => exact nsPreamble_next.2 (.inr (.inl ⟨hst, rfl⟩))
  case done => exact nsPreamble_next.2 (.inr (.inr (.inl ⟨hst, rfl⟩)))
  case atEnd => rw [exec_nsNext_ready hst, nextUnit_at_end hend]
  case found =>
    have hne : s.ns.pos ≠ s.ns.len := fun h => by rw [h] at hpos; omega
    rw [exec_nsNext_ready hst,
      nextUnit_of_found hne (findStartCode_of_first hpos (by omega) hcode hfirst)]
  case notFound =>
    rw [exec_nsNext_ready hst,
      nextUnit_of_none hpos (findStartCode_of_no_code fun k hk hlt => hnone k hk (by omega))]

/-- Settles O48: `ns_reset` has no test of NS's status. -/
theorem nsResetIsAlwaysAccepted : Obligations.NsResetIsAlwaysAccepted :=
  ⟨by decide, exec_nsReset⟩

end Sys2Proof.Machine

namespace Sys2Proof

/-! ### A decoded word is its instruction's word -/

/-- The three fields of `w` are those of the instruction `i` (R92, R93). -/
abbrev HasFieldsOf (w : Command) (i : Instr) : Prop :=
  opField w = encodeOp i ∧ countField w = encodeCount i ∧ immField w = encodeImm i

/-- An operand with no bit above `width` is the extension of its low `width` bits. -/
theorem setWidth_extractLsb'_of_ushiftRight_eq_zero {v : Word} {width : Nat}
    (h : v >>> width = 0) : (v.extractLsb' 0 width).setWidth 32 = v := by
  refine BitVec.eq_of_getLsbD_eq fun k hk => ?_
  by_cases hlow : k < width
  · simp [hk, hlow]
  · have := congrArg (BitVec.getLsbD · (k - width)) h
    simp [Nat.add_sub_cancel' (not_lt.1 hlow)] at this
    simp [hlow, this]

/-- The operand of a boolean is the extension of its one bit. -/
theorem encodeImm_writeBool (v : Word) :
    encodeImm (.writeBool (v.getLsbD 0)) = (v.extractLsb' 0 1).setWidth 32 := by
  refine BitVec.eq_of_getLsbD_eq fun k hk => ?_
  by_cases hk0 : k = 0
  · subst hk0
    cases hv : v.getLsbD 0 <;> simpa [encodeImm] using hv
  · cases hv : v.getLsbD 0 <;> simp [encodeImm, hk0]

/-- A word that `decodeOperand` accepts has the fields of the instruction it is read as, when what
is left of the operand is the instruction's own. -/
theorem hasFieldsOf_of_decodeOperand {w : Command} {width : Nat} {i j : Instr}
    (h : decodeOperand w width i = .instr j) (hop : opField w = encodeOp i)
    (hcount : encodeCount i = 0)
    (himm : immField w >>> width = 0 → immField w = encodeImm i) : HasFieldsOf w j := by
  obtain ⟨hn, hv, rfl⟩ := decodeOperand_eq_instr h
  exact ⟨hop, hn.trans hcount.symm, himm hv⟩

/-- Decoding reads an instruction's own fields (R92, R93). -/
theorem hasFieldsOf_of_decode {w : Command} {i : Instr} (h : decode w = .instr i) :
    HasFieldsOf w i := by
  unfold decode at h
  split at h
  case h_10 hop =>
    cases h
    exact ⟨BitVec.eq_of_toNat_eq hop, rfl, rfl⟩
  case h_7 hop | h_9 hop =>
    exact hasFieldsOf_of_decodeOperand h (BitVec.eq_of_toNat_eq hop) rfl
      (fun hv => (setWidth_extractLsb'_of_ushiftRight_eq_zero hv).symm)
  case h_8 hop =>
    exact hasFieldsOf_of_decodeOperand h (BitVec.eq_of_toNat_eq hop) rfl
      (fun hv => ((encodeImm_writeBool _).trans
        (setWidth_extractLsb'_of_ushiftRight_eq_zero hv)).symm)
  case h_11 hop | h_12 hop | h_15 hop =>
    exact hasFieldsOf_of_decodeOperand h (BitVec.eq_of_toNat_eq hop) rfl (fun _ => rfl)
  case h_18 => cases h
  all_goals
    next hop =>
      exact hasFieldsOf_of_decodeOperand h (BitVec.eq_of_toNat_eq hop) rfl
        (fun hv => (BitVec.ushiftRight_zero _).symm.trans hv)

/-- A word is its opcode, its count and its operand (R92). -/
theorem append_fields (w : Command) : opField w ++ countField w ++ immField w = w := by
  unfold opField countField immField
  rw [BitVec.extractLsb'_append_extractLsb'_eq_extractLsb' (show 40 = 32 + 8 from rfl),
    BitVec.extractLsb'_append_extractLsb'_eq_extractLsb' (show 32 = 0 + 32 from rfl),
    BitVec.extractLsb'_eq_self]

/-- The word an instruction is decoded from is the instruction's word. -/
theorem eq_encode_of_decode {w : Command} {i : Instr} (h : decode w = .instr i) :
    w = encode i := by
  obtain ⟨hop, hcount, himm⟩ := hasFieldsOf_of_decode h
  rw [← append_fields w, hop, hcount, himm]
  rfl

end Sys2Proof

namespace Sys2Proof.Machine

/-! ### Entering a fault -/

/-- A fault of RD touches RD and the responses only (R190). -/
theorem raise_onlyRd (s : State) (cause : Status) (info : Word) :
    OnlyRd s (s.raise .rd cause info) := by
  simp [OnlyRd]

/-- A fault of NS touches NS and the responses only (R190). -/
theorem raise_onlyNs (s : State) (cause : Status) (info : Word) :
    OnlyNs s (s.raise .ns cause info) := by
  simp [OnlyNs]

/-- Settles O51: the marks and the response of each unit's fault, and its frame. -/
theorem faultEntryRecordsTheCause : Obligations.FaultEntryRecordsTheCause := by
  intro s cause info
  exact ⟨⟨markFaulted_rd_st s cause, markFaulted_rd_fault s cause, raise_responses s .rd cause info,
      raise_source s .rd cause info, raise_rdJob s .rd cause info, raise_onlyRd s cause info⟩,
    ⟨markFaulted_wr_st s cause, markFaulted_wr_fault s cause, raise_responses s .wr cause info,
      raise_sink s .wr cause info, raise_wrJob s .wr cause info, raise_onlyWr s cause info⟩,
    ⟨markFaulted_ns_st s cause, markFaulted_ns_fault s cause, raise_responses s .ns cause info,
      raise_scanBuf s .ns cause info, raise_onlyNs s cause info⟩⟩

/-- With no RD command waiting, raising a cause in RD is RD's fault (R190). -/
theorem raise_rdFaulted {s : State} (cause : Status) (info : Word) (hjob : s.rdJob = none) :
    RdFaulted s (s.raise .rd cause info) cause.code info :=
  ⟨rfl, rfl, raise_responses .., (raise_rdJob ..).trans hjob, raise_onlyRd s cause info⟩

/-- With no WR command waiting, raising a cause in WR is WR's fault (R190). -/
theorem raise_wrFaulted {s : State} (cause : Status) (info : Word) (hjob : s.wrJob = none) :
    WrFaulted s (s.raise .wr cause info) cause.code info :=
  ⟨rfl, rfl, raise_responses .., (raise_wrJob ..).trans hjob, raise_onlyWr s cause info⟩

/-! ### Operands that WR rejects before any bit is written -/

/-- A write whose body raises a cause faults a ready WR and leaves the sink as it was. -/
theorem write_faults_of_raise {s : State} {i : Instr} {body : State → State} {cause : Status}
    {info : Word} (hi : writeBody i = some body) (hready : s.WrReady)
    (hbody : body s = s.raise .wr cause info) :
    ∃ t, exec i s = .next t ∧ WrFaulted s t cause.code info ∧ t.sink = s.sink :=
  ⟨_, (exec_of_wrReady hi hready).trans (congrArg _ hbody),
    raise_wrFaulted cause info hready.2, raise_sink ..⟩

/-- Settles O33: the width is tested before the first bit. -/
theorem wideFieldFaultsBeforeAnyBit : Obligations.WideFieldFaultsBeforeAnyBit := by
  intro s n value hready hn
  exact write_faults_of_raise (i := .writeNBits n value) (cause := .badWidth) rfl hready
    (if_pos hn)

/-- A code value outside the domain is rejected (R137, R138). -/
theorem writeCode_of_gt {s : State} {code : Nat} (h : ueMax s.params < code) (info : Word) :
    s.writeCode code info = s.raise .wr .valueRange info := if_pos h

/-- The mapped code of a signed value, as an integer (R86). -/
theorem cast_signedToCode (v : Int) :
    ((signedToCode v : Nat) : Int) = if v > 0 then 2 * v - 1 else -2 * v := by
  unfold signedToCode
  split <;> omega

/-- Settles O36: the code value is tested before the first bit, for `write_se` the mapped one. -/
theorem valueOutsideTheDomainFaultsBeforeAnyBit :
    Obligations.ValueOutsideTheDomainFaultsBeforeAnyBit := by
  intro s value hready
  refine ⟨fun hvalue => ?ue, fun hvalue => ?se⟩
  case ue =>
    exact write_faults_of_raise (i := .writeUe value) (cause := .valueRange) rfl hready
      (writeCode_of_gt hvalue value)
  case se =>
    rw [← cast_signedToCode] at hvalue
    exact write_faults_of_raise (i := .writeSe value) (cause := .valueRange) rfl hready
      (writeCode_of_gt (Int.ofNat_lt.1 hvalue) value)

end Sys2Proof.Machine

namespace Sys2Proof.Machine

/-! ### What RD work keeps and what it raises -/

/-- The statuses RD faults with and their info values, where a code may begin with up to `zeros`
zero bits (R181). -/
def RdRaises (zeros : Nat) (status : Byte) (info : Word) : Prop :=
  (status = 0x10 ∧ info = 0) ∨ (status = 0x11 ∧ info = 0)
    ∨ (status = 0x30 ∧ info = BitVec.ofNat 32 (zeros + 1))

/-- RD work keeps `RD.st` unless it raises a cause, and raises only what `RdRaises` lists. -/
def RdRun.Regular {α : Type} (zeros : Nat) (st : UnitStatus) : RdRun α → Prop
  | .done _ rd _ => rd.st = st
  | .raised cause info _ => RdRaises zeros cause.code info
  | .waits _ rd _ => rd.st = st

variable {zeros : Nat} {st : UnitStatus}

/-- Regular work followed by regular work is regular. -/
theorem RdRun.Regular.andThen {α β : Type} {x : RdRun α} {f : α → Rd → Source → RdRun β}
    (hx : x.Regular zeros st) (hf : ∀ a rd src, rd.st = st → (f a rd src).Regular zeros st) :
    (x.andThen f).Regular zeros st := by
  cases x with
  | done a rd src => exact hf a rd src hx
  | raised cause info src => exact hx
  | waits job rd src => exact hx

theorem readBit_regular {job : RdJob} {rd : Rd} {src : Source} (h : rd.st = st) :
    (readBit job rd src).Regular zeros st := by
  obtain ⟨-, hr⟩ | ⟨-, ⟨b, -, -, hr⟩ | ⟨-, -, hr⟩ | ⟨-, hr⟩ | ⟨-, hr⟩⟩ :=
    readBit_cases job rd src <;> rw [hr]
  · exact h
  · exact h
  · exact .inl ⟨rfl, rfl⟩
  · exact .inr (.inl ⟨rfl, rfl⟩)
  · exact h

/-- A code is too long at its zero bit number `k + left + 1` (R113). -/
theorem readZeros_regular {form : CodeForm} : ∀ {left k : Nat} {rd : Rd} {src : Source},
    rd.st = st → (readZeros form left k rd src).Regular (k + left) st
  | 0, k, rd, src, h => by
    rw [readZeros]
    refine (readBit_regular h).andThen fun b rd' src' h' => ?_
    cases b with
    | true => exact h'
    | false => exact .inr (.inr ⟨rfl, rfl⟩)
  | left + 1, k, rd, src, h => by
    rw [readZeros]
    refine (readBit_regular h).andThen fun b rd' src' h' => ?_
    cases b with
    | true => exact h'
    | false => exact Nat.succ_add_eq_add_succ k left ▸ readZeros_regular h'

theorem readSuffix_regular {form : CodeForm} {k : Nat} :
    ∀ {left suffix : Nat} {rd : Rd} {src : Source},
      rd.st = st → (readSuffix form k left suffix rd src).Regular zeros st
  | 0, _, _, _, h => h
  | _ + 1, _, _, _, h =>
    (readBit_regular h).andThen fun _ _ _ h' => readSuffix_regular h'

theorem finishCode_regular {form : CodeForm} {k left suffix : Nat} {rd : Rd} {src : Source}
    (h : rd.st = st) : (finishCode form k left suffix rd src).Regular zeros st :=
  (readSuffix_regular h).andThen fun _ _ _ h' => h'

theorem pullByte_regular {rd : Rd} {src : Source} (h : rd.st = st) :
    (pullByte rd src).Regular zeros st := by
  unfold pullByte
  obtain ⟨b, -, -, hp⟩ | ⟨-, -, hp⟩ | ⟨-, hp⟩ | ⟨-, hp⟩ := pull_cases src <;> rw [hp]
  · exact h
  · exact .inl ⟨rfl, rfl⟩
  · exact .inr (.inl ⟨rfl, rfl⟩)
  · exact h

/-- How many zero bits may lead the code that `job` is still reading (R113); for work past them
the value plays no part. -/
def RdJob.zerosAllowed (p : Params) : RdJob → Nat
  | .zeros _ k => k + (p.kMax - k)
  | .bit | .byte | .suffix _ _ _ _ => p.kMax

theorem runRd_regular (p : Params) (job : RdJob) (rd : Rd) (src : Source) :
    (runRd p job rd src).Regular (job.zerosAllowed p) rd.st := by
  cases job with
  | bit => exact (readBit_regular rfl).andThen fun _ _ _ h => h
  | byte => exact pullByte_regular rfl
  | zeros form k => exact (readZeros_regular rfl).andThen fun _ _ _ h => finishCode_regular h
  | suffix form k left suffix => exact finishCode_regular rfl

/-- A read begins with no zero bit read, so `K_MAX` of them are allowed (R113). -/
theorem zerosAllowed_of_mem_readJobs {i : Instr} {job : RdJob} (h : (i, job) ∈ readJobs)
    (p : Params) : job.zerosAllowed p = p.kMax := by
  simp only [readJobs, List.mem_cons, Prod.mk.injEq, List.not_mem_nil, or_false] at h
  obtain ⟨-, rfl⟩ | ⟨-, rfl⟩ | ⟨-, rfl⟩ | ⟨-, rfl⟩ | ⟨-, rfl⟩ := h <;>
    simp [RdJob.zerosAllowed]

/-! ### What WR work keeps and what it raises -/

/-- WR work keeps `WR.st` unless it raises a cause, and raises `SNK_IO` alone (R181). -/
def WrRun.Regular (st : UnitStatus) : WrRun → Prop
  | .done wr _ => wr.st = st
  | .raised cause info _ => cause = .snkIo ∧ info = 0
  | .waits _ wr _ => wr.st = st

theorem pushAndEmpty_regular {job : WrJob} {b : Byte} {wr : Wr} {snk : Sink} (h : wr.st = st) :
    (pushAndEmpty job b wr snk).Regular st := by
  obtain ⟨-, hr⟩ | ⟨left, -, hr⟩ | ⟨-, hr⟩ := pushAndEmpty_cases job b wr snk <;> rw [hr]
  · exact h
  · exact ⟨rfl, rfl⟩
  · exact h

theorem writeBit_regular {job : WrJob} {b : Bool} {wr : Wr} {snk : Sink} (h : wr.st = st) :
    (writeBit job b wr snk).Regular st := by
  by_cases hpos : wr.pos = 7
  · exact writeBit_last hpos ▸ pushAndEmpty_regular h
  · exact writeBit_below hpos ▸ h

theorem writeBits_regular : ∀ {bits : List Bool} {wr : Wr} {snk : Sink},
    wr.st = st → (writeBits bits wr snk).Regular st
  | [], _, _, h => h
  | b :: rest, wr, snk, h => by
    have hbit := writeBit_regular (job := .bits (b :: rest)) (b := b) (snk := snk) h
    rw [writeBits]
    cases hrun : writeBit (.bits (b :: rest)) b wr snk with
    | done wr' snk' => exact writeBits_regular (hrun ▸ hbit : WrRun.Regular st (.done wr' snk'))
    | raised cause info snk' => rwa [hrun] at hbit
    | waits job wr' snk' => rwa [hrun] at hbit

theorem flushBits_regular {wr : Wr} {snk : Sink} (h : wr.st = st) :
    (flushBits wr snk).Regular st := by
  by_cases hpos : wr.pos = 0
  · exact flushBits_of_aligned hpos ▸ h
  · exact flushBits_of_pending hpos ▸ pushAndEmpty_regular h

theorem runWr_regular (job : WrJob) (wr : Wr) (snk : Sink) :
    (runWr job wr snk).Regular wr.st := by
  cases job with
  | bits rest => exact writeBits_regular rfl
  | byte v => exact pushAndEmpty_regular rfl
  | flush => exact flushBits_regular rfl

end Sys2Proof.Machine

namespace Sys2Proof.Machine

/-! ### Who ends a unit's fault -/

/-- The unit has faulted (R29). -/
def State.Faulted (s : State) : EgbUnit → Prop
  | .rd => s.rd.st = .fault
  | .wr => s.wr.st = .fault
  | .ns => s.ns.st = .fault

/-- The unit's registers hold their reset values (R38). -/
def State.AtReset (s : State) : EgbUnit → Prop
  | .rd => s.rd = Rd.reset
  | .wr => s.wr = Wr.reset
  | .ns => s.ns = Ns.reset

/-- NS as an `ns_init` that succeeds leaves it (R162). -/
def nsBegun (m : Memory) (len : Word) : Ns :=
  { len := len, pos := BitVec.ofNat 32 (startCodeAt m len.toNat 0), st := .ready, fault := 0x00 }

theorem State.Faulted.congr {s t : State} {u : EgbUnit} (hf : s.Faulted u) (hrd : t.rd = s.rd)
    (hwr : t.wr = s.wr) (hns : t.ns = s.ns) : t.Faulted u := by
  cases u with
  | rd => exact (congrArg Rd.st hrd).trans hf
  | wr => exact (congrArg Wr.st hwr).trans hf
  | ns => exact (congrArg Ns.st hns).trans hf

/-- The end of RD work on a faulted RD leaves it faulted. -/
theorem endRd_keeps_fault {s : State} {zeros : Nat} {run : RdRun Word}
    (h : run.Regular zeros .fault) : (s.endRd run).rd.st = .fault := by
  cases run with
  | done r0 rd src => exact h
  | raised cause info src => rfl
  | waits job rd src => exact h

/-- The end of WR work on a faulted WR leaves it faulted. -/
theorem endWr_keeps_fault {s : State} {run : WrRun} (h : run.Regular .fault) :
    (s.endWr run).wr.st = .fault := by
  cases run with
  | done wr snk => exact h
  | raised cause info snk => rfl
  | waits job wr snk => exact h

/-- An answer of the source ends no unit's fault. -/
theorem resumeRd_keeps_fault {s : State} {u : EgbUnit} (hf : s.Faulted u) :
    s.resumeRd.Faulted u := by
  unfold State.resumeRd
  split
  · exact hf
  · next job _ =>
    obtain ⟨-, hwr, hns, -⟩ := endRd_onlyRd s (runRd s.params job s.rd s.source)
    cases u with
    | rd => exact endRd_keeps_fault (hf ▸ runRd_regular s.params job s.rd s.source)
    | wr => exact (congrArg Wr.st hwr).trans hf
    | ns => exact (congrArg Ns.st hns).trans hf

/-- An answer of the sink ends no unit's fault. -/
theorem resumeWr_keeps_fault {s : State} {u : EgbUnit} (hf : s.Faulted u) :
    s.resumeWr.Faulted u := by
  unfold State.resumeWr
  split
  · exact hf
  · next job _ =>
    obtain ⟨-, hrd, hns, -⟩ := workWr_onlyWr s job
    cases u with
    | rd => exact (congrArg Rd.st hrd).trans hf
    | wr => exact endWr_keeps_fault (hf ▸ runWr_regular job s.wr s.sink)
    | ns => exact (congrArg Ns.st hns).trans hf

/-- No command but `ns_reset` and `ns_init` changes a register of a faulted NS (R160, R163). -/
theorem exec_keeps_ns_of_fault {s t : State} {i : Instr} (hfault : s.ns.st = .fault)
    (hreset : i ≠ .nsReset) (hinit : ∀ len, i ≠ .nsInit len) (h : exec i s = .next t) :
    t.ns = s.ns := by
  cases hu : unitOf i with
  | rd =>
    obtain ⟨-, -, hns, -⟩ := exec_onlyRd hu h
    exact hns
  | wr =>
    obtain ⟨-, -, hns, -⟩ := exec_onlyWr hu h
    exact hns
  | ns =>
    cases i with
    | nsNext =>
      obtain ⟨-, rfl⟩ | ⟨-, rfl⟩ | ⟨-, rfl⟩ | ⟨hready, -⟩ := nsPreamble_next.1 h
      · rfl
      · rfl
      · rfl
      · cases hfault.symm.trans hready
    | nsInit len => exact absurd rfl (hinit len)
    | nsReset => exact absurd rfl hreset
    | _ => cases hu

/-- A command that ends a unit's fault is the unit's reset, or an `ns_init` that succeeds. -/
theorem exec_ends_fault {s t : State} {u : EgbUnit} {i : Instr} (h : exec i s = .next t)
    (hf : s.Faulted u) (hended : ¬ t.Faulted u) :
    (i = resetOf u ∧ t.AtReset u)
      ∨ (u = .ns ∧ ∃ len, i = .nsInit len ∧ t.ns = nsBegun s.buf len) := by
  cases u with
  | rd =>
    obtain rfl : i = .rdReset := by
      by_contra hi
      exact hended ((congrArg Rd.st (exec_keeps_rd_of_fault hf hi h)).trans hf)
    obtain ⟨-, rfl⟩ := exec_rdReset_next.1 h
    exact .inl ⟨rfl, rfl⟩
  | wr =>
    obtain rfl : i = .wrReset := by
      by_contra hi
      exact hended ((congrArg Wr.st (exec_keeps_wr_of_fault hf hi h)).trans hf)
    obtain ⟨-, rfl⟩ := exec_wrReset_next.1 h
    exact .inl ⟨rfl, rfl⟩
  | ns =>
    by_cases hreset : i = .nsReset
    · subst hreset
      cases (exec_nsReset s).symm.trans h
      exact .inl ⟨rfl, rfl⟩
    obtain ⟨len, rfl⟩ : ∃ len, i = .nsInit len := by
      by_contra hinit
      have hkept := exec_keeps_ns_of_fault hf hreset (not_exists.1 hinit) h
      exact hended ((congrArg Ns.st hkept).trans hf)
    cases h
    obtain ⟨-, hbegun⟩ | ⟨-, ⟨hst, -⟩, -⟩ := beginScan_cases s len
    · exact .inr ⟨rfl, len, rfl, congrArg State.ns hbegun⟩
    · exact absurd hst hended

/-- A step that ends a unit's fault takes hardware reset, the unit's reset command or an `ns_init`
that succeeds (R192). -/
theorem step_ends_fault {s t : State} {u : EgbUnit} (h : step s = .next t) (hf : s.Faulted u)
    (hended : ¬ t.Faulted u) :
    ∃ input rest, s.inputs = input :: rest
      ∧ ((t.AtReset u ∧ (input = .hardwareReset ∨ input = .command (encode (resetOf u))))
        ∨ (u = .ns ∧ ∃ len, input = .command (encode (.nsInit len))
            ∧ t.ns = nsBegun s.buf len)) := by
  obtain ⟨-, rfl⟩ | ⟨input, rest, hin, hcase⟩ := step_cases h
  · exact absurd hf hended
  have hf' : State.Faulted { s with inputs := rest } u := hf.congr rfl rfl rfl
  refine ⟨input, rest, hin, ?_⟩
  obtain ⟨w, i, rfl, hd, he⟩ | ⟨w, why, -, -, rfl⟩ | ⟨hinput, rfl⟩ | ⟨src, -, rfl⟩ | ⟨snk, -, rfl⟩
    | ⟨bytes, -, -, -, rfl⟩ | ⟨-, rfl⟩ | ⟨-, rfl⟩ := hcase
  · rw [eq_encode_of_decode hd]
    obtain ⟨rfl, hreset⟩ | ⟨hu, len, rfl, hbegun⟩ := exec_ends_fault he hf' hended
    · exact .inl ⟨hreset, .inr rfl⟩
    · exact .inr ⟨hu, len, rfl, hbegun⟩
  · exact absurd (hf'.congr rfl rfl rfl) hended
  · exact .inl ⟨by cases u <;> rfl, .inl hinput⟩
  · exact absurd (hf'.congr rfl rfl rfl) hended
  · exact absurd (hf'.congr rfl rfl rfl) hended
  · exact absurd (hf'.congr rfl rfl rfl) hended
  · exact absurd (resumeRd_keeps_fault hf') hended
  · exact absurd (resumeWr_keeps_fault hf') hended

/-- Settles O53, for each unit from what a step that ends its fault has taken. -/
theorem onlyAResetLeavesAFault : Obligations.OnlyAResetLeavesAFault := by
  refine fun s t h => ⟨fun hf hended => ?rd, fun hf hended => ?wr, fun hf hended => ?ns⟩
  case rd =>
    obtain ⟨input, rest, hin, ⟨hreset, hinput⟩ | ⟨hu, -⟩⟩ := step_ends_fault (u := .rd) h hf hended
    · exact ⟨hreset, input, rest, hin, hinput⟩
    · cases hu
  case wr =>
    obtain ⟨input, rest, hin, ⟨hreset, hinput⟩ | ⟨hu, -⟩⟩ := step_ends_fault (u := .wr) h hf hended
    · exact ⟨hreset, input, rest, hin, hinput⟩
    · cases hu
  case ns =>
    obtain ⟨input, rest, hin, hcase⟩ := step_ends_fault (u := .ns) h hf hended
    exact ⟨input, rest, hin, hcase.imp_right And.right⟩

end Sys2Proof.Machine

namespace Sys2Proof.Machine

/-! ### How a command ends -/

/-- The statuses WR faults with in command `i` and their info values (R181). -/
def WrRaises (i : Instr) (status : Byte) (info : Word) : Prop :=
  (status = 0x12 ∧ info = 0) ∨ (status = 0x31 ∧ info = encodeImm i)
    ∨ (status = 0x32 ∧ info = (encodeCount i).setWidth 32)

/-- The ways in which command `i` can take `s` to `t` (R180). -/
inductive Ending (i : Instr) (s t : State) : Prop
  | success (r0 r1 : Word) (hresp : t.responses = s.plus 0x00 r0 r1)
  | endOfUnits (hi : i = .nsNext) (hresp : t.responses = s.plus 0x01 0 0)
  | rdFault (status : Byte) (info : Word) (hcause : RdRaises s.params.kMax status info)
      (hfault : RdFaulted s t status info)
  | wrFault (status : Byte) (info : Word) (hcause : WrRaises i status info)
      (hfault : WrFaulted s t status info)
  | nsFault (hfault : NsFaulted s t 0x20 0)
  | refusal (status : Byte) (r0 : Word) (hstatus : status ∈ [0x40, 0x41])
      (hsame : t = { s with responses := s.plus status r0 0 })
  | rdWaits (hu : unitOf i = .rd) (hresp : t.responses = s.responses) (hjob : t.rdJob ≠ none)
  | wrWaits (hu : unitOf i = .wr) (hresp : t.responses = s.responses) (hjob : t.wrJob ≠ none)

/-- RD work that raises only what `RdRaises` lists ends in success, a fault of RD or a wait. -/
theorem endRd_ending {i : Instr} {s : State} {run : RdRun Word} {st : UnitStatus}
    (hu : unitOf i = .rd) (h : run.Regular s.params.kMax st) : Ending i s (s.endRd run) := by
  cases run with
  | done r0 rd src => exact .success r0 0 rfl
  | raised cause info src =>
    exact .rdFault cause.code info h
      (raise_rdFaulted (s := { s with source := src, rdJob := none }) cause info rfl)
  | waits job rd src => exact .rdWaits hu rfl (Option.some_ne_none job)

/-- WR work ends in success, a fault of WR or a wait. -/
theorem workWr_ending {i : Instr} (hu : unitOf i = .wr) (s : State) (job : WrJob) :
    Ending i s (s.workWr job) := by
  have hreg := runWr_regular job s.wr s.sink
  unfold State.workWr
  cases hrun : runWr job s.wr s.sink with
  | done wr snk => exact .success 0 0 rfl
  | raised cause info snk =>
    rw [hrun] at hreg
    obtain ⟨rfl, rfl⟩ := hreg
    exact .wrFault 0x12 0 (.inl ⟨rfl, rfl⟩)
      (raise_wrFaulted (s := { s with sink := snk, wrJob := none }) .snkIo 0 rfl)
  | waits job' wr snk => exact .wrWaits hu rfl (Option.some_ne_none job')

/-- Writing a code ends as WR work does, or with the operand out of range (R137, R138). -/
theorem writeCode_ending {i : Instr} {s : State} {code : Nat} {info : Word}
    (hu : unitOf i = .wr) (hjob : s.wrJob = none) (hinfo : info = encodeImm i) :
    Ending i s (s.writeCode code info) := by
  unfold State.writeCode
  split
  · exact .wrFault 0x31 info (.inr (.inl ⟨rfl, hinfo⟩)) (raise_wrFaulted .valueRange info hjob)
  · exact workWr_ending hu s _

/-- The work of a write ends in success, a fault of WR or a wait. -/
theorem writeBody_ending {i : Instr} {body : State → State} {s : State}
    (hbody : writeBody i = some body) (hjob : s.wrJob = none) : Ending i s (body s) := by
  cases i <;> cases hbody
  case writeNBits n value =>
    dsimp only
    split
    · exact .wrFault 0x32 _ (.inr (.inr ⟨rfl, rfl⟩)) (raise_wrFaulted .badWidth _ hjob)
    · exact workWr_ending rfl s _
  case writeUe value => exact writeCode_ending rfl hjob rfl
  case writeSe value => exact writeCode_ending rfl hjob rfl
  all_goals exact workWr_ending rfl s _

/-- A command refused because its unit has faulted (R193). -/
theorem refuseFaulted_ending (i : Instr) (s : State) (cause : Byte) :
    Ending i s (s.refuseFaulted cause) :=
  .refusal 0x40 (byteWord cause) (.head _) (refuseFaulted_eq s cause)

/-- A ready NS answers END or the range of a unit (R163). -/
theorem nextUnit_ending (s : State) : Ending .nsNext s s.nextUnit := by
  by_cases hpos : s.ns.pos = s.ns.len
  · exact .endOfUnits rfl (congrArg State.responses (nextUnit_at_end hpos))
  cases hf : findStartCode s.scanBuf s.ns.len.toNat (s.ns.len.toNat - s.ns.pos.toNat)
      s.ns.pos.toNat with
  | none => exact .success _ _ (congrArg State.responses (nextUnit_of_none hpos hf))
  | some found =>
    obtain ⟨j, c⟩ := found
    exact .success _ _ (congrArg State.responses (nextUnit_of_found hpos hf))

/-- An RD command ends in success, a fault of RD, a refusal or a wait. -/
theorem exec_rd_ending {i : Instr} {s t : State} (hu : unitOf i = .rd)
    (h : exec i s = .next t) : Ending i s t := by
  by_cases hi : i = .rdReset
  · subst hi
    obtain ⟨-, rfl⟩ := exec_rdReset_next.1 h
    exact .success 0 0 rfl
  obtain ⟨job, hjob⟩ := exists_mem_readJobs hu hi
  rw [exec_of_mem_readJobs hjob] at h
  obtain ⟨-, ⟨-, rfl⟩ | ⟨-, rfl⟩⟩ := rdPreamble_next.1 h
  · exact refuseFaulted_ending i s s.rd.fault
  · exact endRd_ending hu
      (zerosAllowed_of_mem_readJobs hjob s.params ▸ runRd_regular s.params job s.rd s.source)

/-- A WR command ends in success, a fault of WR, a refusal or a wait. -/
theorem exec_wr_ending {i : Instr} {s t : State} (hu : unitOf i = .wr)
    (h : exec i s = .next t) : Ending i s t := by
  by_cases hi : i = .wrReset
  · subst hi
    obtain ⟨-, rfl⟩ := exec_wrReset_next.1 h
    exact .success 0 0 rfl
  obtain ⟨body, hbody⟩ := exists_writeBody hu hi
  rw [exec_of_writeBody hbody] at h
  obtain ⟨hjob, ⟨-, rfl⟩ | ⟨-, rfl⟩⟩ := wrPreamble_next.1 h
  · exact refuseFaulted_ending i s s.wr.fault
  · exact writeBody_ending hbody hjob

/-- An NS command ends in success, a fault of NS or a refusal. -/
theorem exec_ns_ending {i : Instr} {s t : State} (hu : unitOf i = .ns)
    (h : exec i s = .next t) : Ending i s t := by
  cases i with
  | nsInit len =>
    cases h
    obtain ⟨-, hbegun⟩ | ⟨-, hfault, -⟩ := beginScan_cases s len
    · exact .success 0 0 (congrArg State.responses hbegun)
    · exact .nsFault hfault
  | nsNext =>
    obtain ⟨-, rfl⟩ | ⟨-, rfl⟩ | ⟨-, rfl⟩ | ⟨-, rfl⟩ := nsPreamble_next.1 h
    · exact .refusal 0x41 0 (.tail _ (.head _)) rfl
    · exact refuseFaulted_ending _ s s.ns.fault
    · exact .endOfUnits rfl rfl
    · exact nextUnit_ending s
  | nsReset =>
    cases (exec_nsReset s).symm.trans h
    exact .success 0 0 rfl
  | _ => cases hu

/-- Every command that gives a next state ends in one of the ways of R180. -/
theorem exec_ending {i : Instr} {s t : State} (h : exec i s = .next t) : Ending i s t := by
  cases hu : unitOf i with
  | rd => exact exec_rd_ending hu h
  | wr => exact exec_wr_ending hu h
  | ns => exact exec_ns_ending hu h

/-- The step that takes a command's word runs the command (R91). -/
theorem step_of_instr {s : State} {w : Command} {rest : List Input} {i : Instr}
    (h : s.inputs = .command w :: rest) (hd : decode w = .instr i) :
    step s = exec i { s with inputs := rest } := by
  simp only [step, h, takeInput, takeCommand, hd]

/-- Settles O56: an illegal word is refused, a command ends as `Ending` says. -/
theorem commandsEndInFourWays : Obligations.CommandsEndInFourWays := by
  intro s t w rest hin h
  cases hd : decode w with
  | illegal why =>
    cases (step_of_illegal hin hd).symm.trans h
    exact .inr (.inr (.inl ⟨_, List.mem_append_right [0x40, 0x41] (.head _), rfl,
      answerIllegal_eq w _⟩))
  | instr i =>
    obtain ⟨-, hcount, himm⟩ := hasFieldsOf_of_decode hd
    cases exec_ending ((step_of_instr hin hd).symm.trans h) with
    | success r0 r1 hresp => exact .inl ⟨_, hresp, .inl rfl⟩
    | endOfUnits hi hresp => exact .inl ⟨_, hresp, .inr ⟨rfl, congrArg Decoded.instr hi⟩⟩
    | rdFault status info hcause hfault =>
      obtain ⟨hst, hstatus, hresp, -⟩ := hfault
      exact .inr (.inl ⟨_, hresp, rfl, .inl ⟨hcause, hst, hstatus⟩⟩)
    | wrFault status info hcause hfault =>
      obtain ⟨hst, hstatus, hresp, -⟩ := hfault
      rw [WrRaises, ← hcount, ← himm] at hcause
      exact .inr (.inl ⟨_, hresp, rfl, .inr (.inl ⟨hcause, hst, hstatus⟩)⟩)
    | nsFault hfault =>
      obtain ⟨hst, hstatus, hresp, -⟩ := hfault
      exact .inr (.inl ⟨_, hresp, rfl, .inr (.inr ⟨⟨rfl, rfl⟩, hst, hstatus⟩)⟩)
    | refusal status r0 hstatus hsame =>
      exact .inr (.inr (.inl ⟨_, List.mem_append_left [0x7F] hstatus, rfl, hsame⟩))
    | rdWaits hu hresp hjob => exact .inr (.inr (.inr ⟨hresp, i, rfl, .inl ⟨hu, hjob⟩⟩))
    | wrWaits hu hresp hjob => exact .inr (.inr (.inr ⟨hresp, i, rfl, .inr ⟨hu, hjob⟩⟩))

end Sys2Proof.Machine

namespace Sys2Proof

/-! ### An instruction's word is decoded as the instruction -/

theorem hasFieldsOf_encode (i : Instr) : HasFieldsOf (encode i) i :=
  Laws.WordFields.fields_of_parts (encodeOp i) (encodeCount i) (encodeImm i)

/-- A word with the fields of an instruction passes the tests of its count and its operand, when
the instruction has no count and no operand bit above `width` (R93). -/
theorem decodeOperand_of_hasFieldsOf {w : Command} {i : Instr} (width : Nat)
    (h : HasFieldsOf w i) (hcount : encodeCount i = 0) (himm : encodeImm i >>> width = 0) :
    decodeOperand w width i = .instr i := by
  obtain ⟨-, hn, hv⟩ := h
  simp [decodeOperand, hn, hv, hcount, himm]

/-- An operand extended from `width` bits has no bit above them. -/
theorem setWidth_ushiftRight_self {width : Nat} (b : BitVec width) :
    b.setWidth 32 >>> width = 0 :=
  BitVec.eq_of_getLsbD_eq fun k _ => by simp

/-- An operand extended from `width` bits has them as its low bits. -/
theorem extractLsb'_setWidth_self {width : Nat} (hw : width ≤ 32) (b : BitVec width) :
    (b.setWidth 32).extractLsb' 0 width = b :=
  BitVec.eq_of_getLsbD_eq fun k hk => by simp [hk]; omega

/-- A word with the fields of an instruction is decoded as the instruction (R92, R93). -/
theorem decode_of_hasFieldsOf {w : Command} {i : Instr} (h : HasFieldsOf w i) :
    decode w = .instr i := by
  obtain ⟨hop, hcount, himm⟩ := id h
  unfold decode
  rw [hop, himm]
  cases i with
  | writeNBits n value => exact congrArg (fun n => Decoded.instr (.writeNBits n value)) hcount
  | writeBit b =>
    have hb : (encodeImm (.writeBit b)).extractLsb' 0 1 = b :=
      extractLsb'_setWidth_self (by decide) b
    rw [hb]
    exact decodeOperand_of_hasFieldsOf 1 h rfl (setWidth_ushiftRight_self b)
  | writeBool b =>
    have hb : (encodeImm (.writeBool b)).getLsbD 0 = b := by cases b <;> rfl
    rw [hb]
    exact decodeOperand_of_hasFieldsOf 1 h rfl (by cases b <;> rfl)
  | writeByte v =>
    have hv : (encodeImm (.writeByte v)).extractLsb' 0 8 = v :=
      extractLsb'_setWidth_self (by decide) v
    rw [hv]
    exact decodeOperand_of_hasFieldsOf 8 h rfl (setWidth_ushiftRight_self v)
  | writeUe value | writeSe value | nsInit value =>
    exact decodeOperand_of_hasFieldsOf 32 h rfl (setWidth_ushiftRight_self (width := 32) value)
  | _ => exact decodeOperand_of_hasFieldsOf 0 h rfl rfl

theorem decode_encode (i : Instr) : decode (encode i) = .instr i :=
  decode_of_hasFieldsOf (hasFieldsOf_encode i)

/-- Settles O1: the word of a command has the command's fields, and the fields decide what is
decoded. -/
theorem decodeReadsBackEncode : Obligations.DecodeReadsBackEncode := decode_encode

/-- Settles O2, from the fields of the decoded word. -/
theorem encodeReadsBackDecode : Obligations.EncodeReadsBackDecode :=
  fun _ _ h => (eq_encode_of_decode h).symm

/-- Settles O5. -/
theorem sampleWordsDecode : Obligations.SampleWordsDecode := by
  unfold Obligations.SampleWordsDecode
  decide

/-! ### A word that fits a row of the opcode table is decoded -/

/-- A word that fits a row which fixes every bit from `free` up has the row's opcode, and zeros
between. -/
theorem fields_of_fits {r : TableRow} {w : Command} {op free : Nat}
    (hpattern : r.pattern = BitVec.ofNat 8 op ++ 0#40) (hmask : r.mask = BitVec.allOnes 48 <<< free)
    (hfree : free ≤ 40) (h : r.fits w = true) :
    opField w = BitVec.ofNat 8 op ∧ ∀ k, free ≤ k → k < 40 → w.getLsbD k = false := by
  rw [TableRow.fits, beq_iff_eq, hpattern, hmask] at h
  have hbit := fun k => congrArg (BitVec.getLsbD · k) h
  simp only [BitVec.getLsbD_and, BitVec.getLsbD_shiftLeft, BitVec.getLsbD_allOnes,
    BitVec.getLsbD_append, BitVec.getLsbD_zero] at hbit
  constructor
  · refine BitVec.eq_of_getLsbD_eq fun k hk => ?_
    have := hbit (40 + k)
    simpa [opField, hk, show ¬ 40 + k < free by omega, show 40 + k - free < 48 by omega,
      show 40 + k < 48 by omega] using this
  · intro k hlow hk
    simpa [hk, show ¬ k < free by omega, show k - free < 48 by omega, show k < 48 by omega]
      using hbit k

/-- With no bit set between `width` and the opcode the count is zero and the operand has no bit
above its width. -/
theorem fields_eq_zero {w : Command} {width : Nat} (hwidth : width ≤ 32)
    (h : ∀ k, width ≤ k → k < 40 → w.getLsbD k = false) :
    countField w = 0 ∧ immField w >>> width = 0 := by
  constructor
  · refine BitVec.eq_of_getLsbD_eq fun k hk => ?_
    simpa [countField, hk] using h (32 + k) (by omega) (by omega)
  · refine BitVec.eq_of_getLsbD_eq fun k hk => ?_
    by_cases hlt : width + k < 32
    · simpa [immField, hlt] using h (width + k) (by omega) (by omega)
    · simp [immField, hlt]

/-- The opcode of each row but `write_n_bits`, and how many low bits of the word the row leaves
free (R92, R93). -/
def operandRows : List (Nat × Nat) :=
  [(0x01, 0), (0x02, 0), (0x03, 0), (0x04, 0), (0x05, 0), (0x0F, 0), (0x11, 1), (0x12, 1),
    (0x13, 8), (0x15, 32), (0x16, 32), (0x17, 0), (0x1F, 0), (0x21, 32), (0x22, 0), (0x2F, 0)]

/-- The row fixes every bit of the word from `free` up, to the opcode and zeros below it. -/
abbrev TableRow.Fixes (r : TableRow) (op free : Nat) : Prop :=
  r.pattern = BitVec.ofNat 8 op ++ 0#40 ∧ r.mask = BitVec.allOnes 48 <<< free

theorem opcodeTable_rows :
    ∀ r ∈ opcodeTable, r.Fixes 0x14 40 ∨ ∃ row ∈ operandRows, r.Fixes row.1 row.2 := by
  decide

/-- A word with the opcode of a row and zeros where the row has them is decoded. -/
theorem exists_decode_of_operandRow {w : Command} {op free : Nat} (hrow : (op, free) ∈ operandRows)
    (hop : opField w = BitVec.ofNat 8 op)
    (hzero : ∀ k, free ≤ k → k < 40 → w.getLsbD k = false) : ∃ i, decode w = .instr i := by
  have hfields : ∀ {width : Nat} (i : Instr), width = free → width ≤ 32 →
      ∃ j, decodeOperand w width i = .instr j := by
    rintro width i rfl hwidth
    obtain ⟨hn, hi⟩ := fields_eq_zero hwidth hzero
    exact ⟨i, by simp [decodeOperand, hn, hi]⟩
  unfold decode
  rw [hop]
  simp only [operandRows, List.mem_cons, Prod.mk.injEq, List.not_mem_nil, or_false] at hrow
  rcases hrow with ⟨rfl, hfree⟩ | ⟨rfl, hfree⟩ | ⟨rfl, hfree⟩ | ⟨rfl, hfree⟩ | ⟨rfl, hfree⟩
    | ⟨rfl, hfree⟩ | ⟨rfl, hfree⟩ | ⟨rfl, hfree⟩ | ⟨rfl, hfree⟩ | ⟨rfl, hfree⟩ | ⟨rfl, hfree⟩
    | ⟨rfl, hfree⟩ | ⟨rfl, hfree⟩ | ⟨rfl, hfree⟩ | ⟨rfl, hfree⟩ | ⟨rfl, hfree⟩ <;>
  exact hfields _ hfree.symm (by decide)

/-- The decoder accepts every word of the table (R92). -/
theorem exists_decode_of_wellFormedWord {w : Command} (h : wellFormedWord w = true) :
    ∃ i, decode w = .instr i := by
  obtain ⟨r, hr, hfits⟩ := List.any_eq_true.1 h
  obtain ⟨hpattern, hmask⟩ | ⟨⟨op, free⟩, hrow, hpattern, hmask⟩ := opcodeTable_rows r hr
  · obtain ⟨hop, -⟩ := fields_of_fits hpattern hmask le_rfl hfits
    refine ⟨.writeNBits (countField w) (immField w), ?_⟩
    unfold decode
    rw [hop]
    rfl
  · have hfree : free ≤ 40 := by
      have : ∀ row ∈ operandRows, row.2 ≤ 40 := by decide
      exact this _ hrow
    obtain ⟨hop, hzero⟩ := fields_of_fits hpattern hmask hfree hfits
    exact exists_decode_of_operandRow hrow hop hzero

/-- Settles O3: each row's fixed bits are those the decoder tests. -/
theorem decodeAcceptsExactlyTheTable : Obligations.DecodeAcceptsExactlyTheTable :=
  fun _ => ⟨exists_decode_of_wellFormedWord, fun ⟨_, h⟩ => wellFormedWord_of_decode h⟩

end Sys2Proof

namespace Sys2Proof.Machine

/-! ### The port -/

/-- Settles O6. -/
theorem stepRunsTheDecodedCommand : Obligations.StepRunsTheDecodedCommand :=
  fun _ _ _ _ hin hd => step_of_instr hin hd

/-- Settles O7. -/
theorem idleStepHoldsTheState : Obligations.IdleStepHoldsTheState := by
  intro s h
  simp only [step, h]

/-- Settles O8: hardware reset writes the registers and the two waiting commands. -/
theorem hardwareResetSetsEveryRegister : Obligations.HardwareResetSetsEveryRegister :=
  fun _ _ hin => (step_of_hardwareReset hin).trans (congrArg _ (hardwareReset_eq _))

/-- A run of bytes placed from offset `a` is read back, and every other offset reads as before
(R225). -/
theorem Memory.read_place : ∀ {bytes : List Byte} {m : Memory} {a : Nat},
    a + bytes.length ≤ bufferSpace → m.wf = true → ∀ c,
      (m.place a bytes).read c
        = if a ≤ c ∧ c < a + bytes.length then bytes.getD (c - a) unlistedByte else m.read c
  | [], m, a, _, _, c => by
    rw [if_neg (by simp only [List.length_nil]; omega)]
    rfl
  | b :: bytes, m, a, h, hm, c => by
    rw [List.length_cons] at h
    rw [Memory.place, Memory.read_place (by omega) (Memory.wf_write (by omega) hm) c,
      List.length_cons]
    obtain hc | rfl | hc := lt_trichotomy c a
    · rw [if_neg (by omega), if_neg (by omega), Memory.read_write_other (by omega)]
    · rw [if_neg (by omega), if_pos (by omega), Memory.read_write_same hm, Nat.sub_self]
      rfl
    · obtain ⟨d, rfl⟩ := Nat.exists_eq_add_of_lt hc
      rw [Memory.read_write_other (by omega), show a + d + 1 - (a + 1) = d by omega,
        show a + d + 1 - a = d + 1 by omega, List.getD_cons_succ]
      exact if_congr (by omega) rfl rfl

/-- Settles O10: the bytes are placed from offset 0 in a canonical buffer. -/
theorem placedBytesAreReadBack : Obligations.PlacedBytesAreReadBack := by
  intro s bytes rest hin hwf hst hlen
  have hread := Memory.read_place (a := 0) (bytes := bytes) (by simpa [bufferSpace] using hlen) hwf
  refine ⟨s.buf.place 0 bytes, ?step, fun a b hb => ?placed, fun a ha => ?other⟩
  case step =>
    have hfits : ¬ bytes.length > bufferSpace := not_lt.2 hlen
    simp only [step, hin, takeInput, placeBuffer, if_neg hst, if_neg hfits]
  case placed =>
    obtain ⟨hlt, -⟩ := List.getElem?_eq_some_iff.1 hb
    rw [hread, if_pos (by omega), List.getD_eq_getElem?_getD, Nat.sub_zero, hb]
    rfl
  case other => rw [hread, if_neg (by omega)]

/-- Hardware reset and the unit's reset command begin the unit anew (R223, R224). -/
theorem beginsInstance_of_reset {u : EgbUnit} {input : Input}
    (h : input = .hardwareReset ∨ input = .command (encode (resetOf u))) :
    beginsInstance u input = true := by
  obtain rfl | rfl := h
  · rfl
  · exact decide_eq_true (decode_encode _)

/-- Settles O11: each of the three situations frees the stream. -/
theorem bindingAtReset : Obligations.BindingAtReset := by
  refine fun s rest => ⟨fun src hin hfree => ?source, fun snk hin hfree => ?sink⟩
  case source =>
    have hsf : sourceFree { s with inputs := rest } = true := by
      obtain ⟨hrd, hjob⟩ | ⟨hst, hjob⟩ | ⟨before, reset, later, rfl, hbefore, hreset⟩ := hfree
      · simp [sourceFree, hrd, hjob]
      · simp [sourceFree, hst, hjob]
      · simp [sourceFree,
          resetFirst_append (beginsInstance_of_reset (u := .rd) hreset) hbefore]
    simp only [step, hin, takeInput, if_pos hsf]
  case sink =>
    have hsf : sinkFree { s with inputs := rest } = true := by
      obtain ⟨hwr, hjob⟩ | ⟨hst, hjob⟩ | ⟨before, reset, later, rfl, hbefore, hreset⟩ := hfree
      · simp [sinkFree, hwr, hjob]
      · simp [sinkFree, hst, hjob]
      · simp [sinkFree,
          resetFirst_append (beginsInstance_of_reset (u := .wr) hreset) hbefore]
    simp only [step, hin, takeInput, if_pos hsf]

/-! ### What no command does -/

/-- Settles O54, unit by unit. -/
theorem firstCauseIsKept : Obligations.FirstCauseIsKept :=
  fun _ _ _ h => ⟨fun hf hi => exec_keeps_rd_of_fault hf hi h,
    fun hf hi => exec_keeps_wr_of_fault hf hi h,
    fun hf hreset hinit => exec_keeps_ns_of_fault hf hreset hinit h⟩

theorem exec_params {s t : State} {i : Instr} (h : exec i s = .next t) : t.params = s.params := by
  cases hu : unitOf i with
  | rd => exact (exec_onlyRd hu h).1
  | wr => exact (exec_onlyWr hu h).1
  | ns => exact (exec_onlyNs hu h).1

/-- An answer of the source touches RD, the source and the responses only (R74). -/
theorem resumeRd_onlyRd (s : State) : OnlyRd s s.resumeRd := by
  unfold State.resumeRd
  split
  · simp [OnlyRd]
  · exact endRd_onlyRd s _

/-- An answer of the sink touches WR, the sink and the responses only (R74). -/
theorem resumeWr_onlyWr (s : State) : OnlyWr s s.resumeWr := by
  unfold State.resumeWr
  split
  · simp [OnlyWr]
  · exact workWr_onlyWr s _

/-- Settles O60, from the frames of what an input can do. -/
theorem noStepChangesTheParameter : Obligations.NoStepChangesTheParameter := by
  intro s t h
  obtain ⟨-, rfl⟩ | ⟨input, rest, -, ⟨w, i, -, -, he⟩ | ⟨w, why, -, -, rfl⟩ | ⟨-, rfl⟩
    | ⟨src, -, rfl⟩ | ⟨snk, -, rfl⟩ | ⟨bytes, -, -, -, rfl⟩ | ⟨-, rfl⟩ | ⟨-, rfl⟩⟩ := step_cases h
  · rfl
  · exact (exec_params he :)
  · rfl
  · rfl
  · rfl
  · rfl
  · rfl
  · exact (resumeRd_onlyRd _).1
  · exact (resumeWr_onlyWr _).1

/-! ### The statuses of a step -/

theorem code_mem_statusCodes (status : Status) : status.code ∈ statusCodes := by
  cases status <;> decide

/-- The step answers nothing, or once with a listed status (R94, R95). -/
def AnswersListed (s t : State) : Prop :=
  t.responses = s.responses
    ∨ ∃ r : Response, t.responses = s.responses ++ [r] ∧ r.status ∈ statusCodes

theorem answersListed_of_plus {s t : State} {status : Byte} {r0 r1 : Word}
    (hstatus : status ∈ statusCodes) (h : t.responses = s.plus status r0 r1) :
    AnswersListed s t := .inr ⟨_, h, hstatus⟩

/-- A command answers with a listed status (R95). -/
theorem exec_answersListed {s t : State} {i : Instr} (h : exec i s = .next t) :
    AnswersListed s t := by
  cases exec_ending h with
  | success r0 r1 hresp => exact answersListed_of_plus (by decide) hresp
  | endOfUnits hi hresp => exact answersListed_of_plus (by decide) hresp
  | rdFault status info hcause hfault =>
    obtain ⟨-, -, hresp, -⟩ := hfault
    refine answersListed_of_plus ?_ hresp
    obtain ⟨rfl, -⟩ | ⟨rfl, -⟩ | ⟨rfl, -⟩ := hcause <;> decide
  | wrFault status info hcause hfault =>
    obtain ⟨-, -, hresp, -⟩ := hfault
    refine answersListed_of_plus ?_ hresp
    obtain ⟨rfl, -⟩ | ⟨rfl, -⟩ | ⟨rfl, -⟩ := hcause <;> decide
  | nsFault hfault =>
    obtain ⟨-, -, hresp, -⟩ := hfault
    exact answersListed_of_plus (by decide) hresp
  | refusal status r0 hstatus hsame =>
    refine answersListed_of_plus ?_ (congrArg State.responses hsame)
    have : [0x40, 0x41] ⊆ statusCodes := by decide
    exact this hstatus
  | rdWaits hu hresp hjob => exact .inl hresp
  | wrWaits hu hresp hjob => exact .inl hresp

theorem resumeRd_answersListed (s : State) : AnswersListed s s.resumeRd := by
  unfold State.resumeRd
  split
  · exact .inl rfl
  · obtain hresp | ⟨status, r0, hresp⟩ := endRd_responses s (runRd s.params _ s.rd s.source)
    · exact .inl hresp
    · exact answersListed_of_plus (code_mem_statusCodes status) hresp

theorem resumeWr_answersListed (s : State) : AnswersListed s s.resumeWr := by
  unfold State.resumeWr
  split
  · exact .inl rfl
  · obtain hresp | ⟨status, r0, hresp⟩ := endWr_responses s (runWr _ s.wr s.sink)
    · exact .inl hresp
    · exact answersListed_of_plus (code_mem_statusCodes status) hresp

/-- Settles O55: only commands, illegal words and the two answers of the environment give a
response. -/
theorem everyStatusIsListed : Obligations.EveryStatusIsListed := by
  intro s t h
  obtain ⟨-, rfl⟩ | ⟨input, rest, -, ⟨w, i, -, -, he⟩ | ⟨w, why, -, -, rfl⟩ | ⟨-, rfl⟩
    | ⟨src, -, rfl⟩ | ⟨snk, -, rfl⟩ | ⟨bytes, -, -, -, rfl⟩ | ⟨-, rfl⟩ | ⟨-, rfl⟩⟩ := step_cases h
  · exact .inl rfl
  · exact (exec_answersListed he :)
  · exact .inr ⟨_, rfl, code_mem_statusCodes .illegalCmd⟩
  · exact .inl rfl
  · exact .inl rfl
  · exact .inl rfl
  · exact .inl rfl
  · exact (resumeRd_answersListed _ :)
  · exact (resumeWr_answersListed _ :)

end Sys2Proof.Machine

namespace Sys2Proof.Machine

/-! ### What one bit read leaves -/

/-- Reading `n` bits has taken `rd`, `src` to `rd'`, `src'`: the status, the cause and the source's
bytes are kept, and the position in the stream has moved by `n` bits (R35, R110). -/
structure BitsTaken (n : Nat) (rd : Rd) (src : Source) (rd' : Rd) (src' : Source) : Prop where
  st : rd'.st = rd.st
  fault : rd'.fault = rd.fault
  bytes : src'.bytes = src.bytes
  pos : 8 * src'.idx + rd'.off.val = 8 * src.idx + rd.off.val + n
  forward : src.idx ≤ src'.idx
  idx_le : src.idx ≤ src.bytes.length → src'.idx ≤ src.bytes.length

theorem BitsTaken.refl (rd : Rd) (src : Source) : BitsTaken 0 rd src rd src :=
  ⟨rfl, rfl, rfl, rfl, le_rfl, id⟩

theorem BitsTaken.trans {m n : Nat} {rd rd' rd'' : Rd} {src src' src'' : Source}
    (h : BitsTaken m rd src rd' src') (h' : BitsTaken n rd' src' rd'' src'') :
    BitsTaken (m + n) rd src rd'' src'' where
  st := h'.st.trans h.st
  fault := h'.fault.trans h.fault
  bytes := h'.bytes.trans h.bytes
  pos := by rw [h'.pos, h.pos, Nat.add_assoc]
  forward := h.forward.trans h'.forward
  idx_le hle := h.bytes ▸ h'.idx_le (h.bytes.symm ▸ h.idx_le hle)

/-- Counting a bit below offset 8 does not wrap (R22; log entry 7). -/
theorem off_succ_val {off : Fin 9} (h : off ≠ 8) : (off + 1).val = off.val + 1 := by
  revert h
  decide +revert

/-- A bit that is delivered has been counted (R110). -/
theorem readBit_done {job : RdJob} {rd rd' : Rd} {src src' : Source} {b : Bool}
    (h : readBit job rd src = .done b rd' src') :
    BitsTaken 1 rd src rd' src' ∧ rd'.off ≠ 0 := by
  obtain ⟨h8, hr⟩ | ⟨h8, ⟨x, -, hx, hr⟩ | ⟨-, -, hr⟩ | ⟨-, hr⟩ | ⟨-, hr⟩⟩ :=
    readBit_cases job rd src <;> cases hr.symm.trans h
  · have hoff := off_succ_val h8
    exact ⟨⟨rfl, rfl, rfl, by rw [hoff]; omega, le_rfl, id⟩,
      fun h0 => Nat.succ_ne_zero _ (hoff.symm.trans (congrArg Fin.val h0))⟩
  · obtain ⟨hlt, -⟩ := List.getElem?_eq_some_iff.1 hx
    exact ⟨⟨rfl, rfl, rfl, by rw [h8]; simp; omega, Nat.le_succ _, fun _ => hlt⟩,
      show (1 : Fin 9) ≠ 0 by decide⟩

/-- A refill that fails raises one of the source's two causes (R182, R183). -/
theorem readBit_raised {job : RdJob} {rd : Rd} {src src' : Source} {cause : Status} {info : Word}
    (h : readBit job rd src = .raised cause info src') :
    (cause = .srcUnderrun ∨ cause = .srcIo) ∧ info = 0 ∧ src' = src.answered := by
  obtain ⟨-, hr⟩ | ⟨-, ⟨x, -, -, hr⟩ | ⟨-, -, hr⟩ | ⟨-, hr⟩ | ⟨-, hr⟩⟩ :=
    readBit_cases job rd src <;> cases hr.symm.trans h
  · exact ⟨.inl rfl, rfl, rfl⟩
  · exact ⟨.inr rfl, rfl, rfl⟩

/-- A bit is waited for at a refill, with nothing changed but the source's answers (R74). -/
theorem readBit_waits {job job' : RdJob} {rd rd' : Rd} {src src' : Source}
    (h : readBit job rd src = .waits job' rd' src') :
    job' = job ∧ rd' = rd ∧ rd.off = 8 ∧ src.answers.head? = some .withhold
      ∧ src' = src.answered := by
  obtain ⟨-, hr⟩ | ⟨h8, ⟨x, -, -, hr⟩ | ⟨-, -, hr⟩ | ⟨-, hr⟩ | ⟨hw, hr⟩⟩ :=
    readBit_cases job rd src <;> cases hr.symm.trans h
  exact ⟨rfl, rfl, h8, hw, rfl⟩

/-! ### RD work, bit by bit -/

/-- What is left to do of a code when the bit `b` has been read (R113). -/
inductive RdJob.Next (p : Params) : RdJob → Bool → RdJob → Prop
  | one (form : CodeForm) (k : Nat) : Next p (.zeros form k) true (.suffix form k k 0)
  | zero {k : Nat} (form : CodeForm) (hk : k < p.kMax) :
      Next p (.zeros form k) false (.zeros form (k + 1))
  | suffix (form : CodeForm) (k left got : Nat) (b : Bool) :
      Next p (.suffix form k (left + 1) got) b (.suffix form k left (2 * got + b.toNat))

/-- The work needs another bit. -/
def RdJob.AwaitsBit : RdJob → Prop
  | .bit | .zeros _ _ => True
  | .suffix _ _ left _ => left ≠ 0
  | .byte => False

theorem runRd_suffix_zero (p : Params) (form : CodeForm) (k got : Nat) (rd : Rd) (src : Source) :
    runRd p (.suffix form k 0 got) rd src = .done (codeWord form (codeValue k got)) rd src := rfl

theorem RdRun.andThen_assoc {α β γ : Type} (x : RdRun α) (f : α → Rd → Source → RdRun β)
    (g : β → Rd → Source → RdRun γ) :
    (x.andThen f).andThen g = x.andThen fun a rd src => (f a rd src).andThen g := by
  cases x <;> rfl

theorem runRd_suffix_succ (p : Params) (form : CodeForm) (k left got : Nat) (rd : Rd)
    (src : Source) :
    runRd p (.suffix form k (left + 1) got) rd src
      = (readBit (.suffix form k (left + 1) got) rd src).andThen fun b =>
          runRd p (.suffix form k left (2 * got + b.toNat)) :=
  RdRun.andThen_assoc ..

/-- The bit after `k` zero bits ends the run of them, or is one more zero bit, or makes the
code too long (R113). -/
theorem runRd_zeros (p : Params) (form : CodeForm) (k : Nat) (rd : Rd) (src : Source) :
    runRd p (.zeros form k) rd src
      = (readBit (.zeros form k) rd src).andThen fun b rd src =>
          if b then runRd p (.suffix form k k 0) rd src
          else if k < p.kMax then runRd p (.zeros form (k + 1)) rd src
          else .raised .codeTooLong (BitVec.ofNat 32 (k + 1)) src := by
  simp only [runRd, readCodeFrom]
  rw [readZeros, RdRun.andThen_assoc]
  congr 1
  funext b rd src
  cases b with
  | true => rfl
  | false =>
    by_cases hk : k < p.kMax
    · obtain ⟨left, hleft⟩ := Nat.exists_eq_add_of_lt hk
      rw [show p.kMax - k = left + 1 by omega, show p.kMax - (k + 1) = left by omega]
      simp [hk]
    · simp [hk, Nat.sub_eq_zero_of_le (not_lt.1 hk)]

/-- With one more bit read the work goes on as the job that is left. -/
theorem runRd_next {p : Params} {job job' : RdJob} {rd rd' : Rd} {src src' : Source} {b : Bool}
    (hnext : job.Next p b job') (h : readBit job rd src = .done b rd' src') :
    runRd p job rd src = runRd p job' rd' src' := by
  cases hnext with
  | one form k =>
    rw [runRd_zeros, h, andThen_done]
    rfl
  | zero form hk =>
    rw [runRd_zeros, h, andThen_done]
    simp only [hk, if_true, Bool.false_eq_true, if_false]
  | suffix form k left got b => rw [runRd_suffix_succ, h, andThen_done]

/-- Work that awaits a bit faults when the refill does. -/
theorem runRd_of_raised {p : Params} {job : RdJob} {rd : Rd} {src src' : Source} {cause : Status}
    {info : Word} (hjob : job.AwaitsBit) (h : readBit job rd src = .raised cause info src') :
    runRd p job rd src = .raised cause info src' := by
  match job, hjob with
  | .bit, _ => rw [runRd, h, andThen_raised]
  | .zeros form k, _ => rw [runRd_zeros, h, andThen_raised]
  | .suffix form k (left + 1) got, _ => rw [runRd_suffix_succ, h, andThen_raised]

/-- Work that awaits a bit waits when the refill does. -/
theorem runRd_of_waits {p : Params} {job job' : RdJob} {rd rd' : Rd} {src src' : Source}
    (hjob : job.AwaitsBit) (h : readBit job rd src = .waits job' rd' src') :
    runRd p job rd src = .waits job' rd' src' := by
  match job, hjob with
  | .bit, _ => rw [runRd, h, andThen_waits]
  | .zeros form k, _ => rw [runRd_zeros, h, andThen_waits]
  | .suffix form k (left + 1) got, _ => rw [runRd_suffix_succ, h, andThen_waits]

theorem runRd_tooLong {p : Params} {form : CodeForm} {k : Nat} {rd rd' : Rd} {src src' : Source}
    (hk : p.kMax ≤ k) (h : readBit (.zeros form k) rd src = .done false rd' src') :
    runRd p (.zeros form k) rd src = .raised .codeTooLong (BitVec.ofNat 32 (k + 1)) src' := by
  rw [runRd_zeros, h, andThen_done]
  simp only [not_lt.2 hk, Bool.false_eq_true, if_false]

/-- How RD work can go: from a job, with these registers and this source, to its end. -/
inductive RdRuns (p : Params) : RdJob → Rd → Source → RdRun Word → Prop
  | bit {rd rd' : Rd} {src src' : Source} {b : Bool}
      (h : readBit .bit rd src = .done b rd' src') :
      RdRuns p .bit rd src (.done (bitWord b) rd' src')
  | byte {rd : Rd} {src : Source} {b : Byte} (h : src.bytes[src.idx]? = some b)
      (hd : src.NextDelivers) :
      RdRuns p .byte rd src (.done (byteWord b) { rd with off := 8 } src.advanced)
  | code (form : CodeForm) (k got : Nat) (rd : Rd) (src : Source) :
      RdRuns p (.suffix form k 0 got) rd src (.done (codeWord form (codeValue k got)) rd src)
  | tooLong {form : CodeForm} {k : Nat} {rd rd' : Rd} {src src' : Source} (hk : p.kMax ≤ k)
      (h : readBit (.zeros form k) rd src = .done false rd' src') :
      RdRuns p (.zeros form k) rd src (.raised .codeTooLong (BitVec.ofNat 32 (k + 1)) src')
  | pullFails {job : RdJob} {rd : Rd} {src : Source} {cause : Status}
      (hcause : cause = .srcUnderrun ∨ cause = .srcIo) :
      RdRuns p job rd src (.raised cause 0 src.answered)
  | bitWithheld {job : RdJob} {rd : Rd} {src : Source} (hjob : job.AwaitsBit) (h8 : rd.off = 8)
      (hw : src.answers.head? = some .withhold) :
      RdRuns p job rd src (.waits job rd src.answered)
  | byteWithheld {rd : Rd} {src : Source} (hw : src.answers.head? = some .withhold) :
      RdRuns p .byte rd src (.waits .byte { rd with off := 8 } src.answered)
  | next {job job' : RdJob} {rd rd' : Rd} {src src' : Source} {b : Bool} {r : RdRun Word}
      (hnext : job.Next p b job') (h : readBit job rd src = .done b rd' src')
      (hr : RdRuns p job' rd' src' r) : RdRuns p job rd src r

/-- The most bits the work may still read; a byte counts as eight (R237). -/
def RdJob.bitsLeft (p : Params) : RdJob → Nat
  | .bit => 1
  | .byte => 8
  | .zeros _ k => 2 * (p.kMax - k) + k + 1
  | .suffix _ _ left _ => left

theorem RdJob.Next.bitsLeft_lt {p : Params} {job job' : RdJob} {b : Bool}
    (h : job.Next p b job') : job'.bitsLeft p < job.bitsLeft p := by
  cases h <;> simp only [RdJob.bitsLeft] <;> omega

/-- Work that awaits a bit goes as `RdRuns` says when the work that is left after the bit does. -/
theorem rdRuns_of_awaitsBit {p : Params} {job : RdJob} {rd : Rd} {src : Source}
    (hjob : job.AwaitsBit)
    (hnext : ∀ {b job' rd' src'}, job.Next p b job' →
      RdRuns p job' rd' src' (runRd p job' rd' src')) :
    RdRuns p job rd src (runRd p job rd src) := by
  cases hr : readBit job rd src with
  | raised cause info src' =>
    obtain ⟨hcause, rfl, rfl⟩ := readBit_raised hr
    exact runRd_of_raised hjob hr ▸ .pullFails hcause
  | waits job' rd' src' =>
    obtain ⟨rfl, rfl, h8, hw, rfl⟩ := readBit_waits hr
    exact runRd_of_waits hjob hr ▸ .bitWithheld hjob h8 hw
  | done b rd' src' =>
    have goesOn : ∀ {job'}, job.Next p b job' → RdRuns p job rd src (runRd p job rd src) :=
      fun h => runRd_next h hr ▸ .next h hr (hnext h)
    match job, b, hjob with
    | .bit, b, _ =>
      rw [runRd, hr, andThen_done]
      exact .bit hr
    | .zeros form k, true, _ => exact goesOn (.one form k)
    | .zeros form k, false, _ =>
      by_cases hk : k < p.kMax
      · exact goesOn (.zero form hk)
      · exact runRd_tooLong (not_lt.1 hk) hr ▸ .tooLong (not_lt.1 hk) hr
    | .suffix form k (left + 1) got, b, _ => exact goesOn (.suffix form k left got b)

/-- Everything RD work can do. -/
theorem runRd_runs (p : Params) (job : RdJob) (rd : Rd) (src : Source) :
    RdRuns p job rd src (runRd p job rd src) :=
  match job with
  | .bit => rdRuns_of_awaitsBit trivial fun h => by cases h
  | .byte => by
    rw [runRd, pullByte]
    obtain ⟨b, hd, hb, hp⟩ | ⟨-, -, hp⟩ | ⟨-, hp⟩ | ⟨hw, hp⟩ := pull_cases src <;> rw [hp]
    · exact .byte hb hd
    · exact .pullFails (.inl rfl)
    · exact .pullFails (.inr rfl)
    · exact .byteWithheld hw
  | .suffix form k 0 got => .code form k got rd src
  | .suffix form k (left + 1) got =>
    rdRuns_of_awaitsBit (Nat.succ_ne_zero left) fun {_ job' rd' src'} h =>
      have := h.bitsLeft_lt
      runRd_runs p job' rd' src'
  | .zeros form k =>
    rdRuns_of_awaitsBit trivial fun {_ job' rd' src'} h =>
      have := h.bitsLeft_lt
      runRd_runs p job' rd' src'
termination_by job.bitsLeft p

end Sys2Proof.Machine

namespace Sys2Proof.Machine

/-! ### RD: one bit, one byte -/

/-- A ready RD does the work of a read. -/
theorem exec_of_rdReady {i : Instr} {job : RdJob} {s : State} (hi : (i, job) ∈ readJobs)
    (hready : s.RdReady) : exec i s = .next (s.endRd (runRd s.params job s.rd s.source)) :=
  (exec_of_mem_readJobs hi s).trans (rdPreamble_ready hready)

/-- Work that completes answers OK with its result (R94). -/
theorem exec_of_runRd_done {i : Instr} {job : RdJob} {s : State} {r0 : Word} {rd : Rd}
    {src : Source} (hi : (i, job) ∈ readJobs) (hready : s.RdReady)
    (hrun : runRd s.params job s.rd s.source = .done r0 rd src) :
    exec i s = .next { s with rd := rd, source := src, responses := s.plus 0x00 r0 0 } := by
  rw [exec_of_rdReady hi hready, hrun, endRd_done, ← hready.2]

/-- Work that raises a cause faults RD (R190). -/
theorem exec_of_runRd_raised {i : Instr} {job : RdJob} {s : State} {cause : Status} {info : Word}
    {src : Source} (hi : (i, job) ∈ readJobs) (hready : s.RdReady)
    (hrun : runRd s.params job s.rd s.source = .raised cause info src) :
    ∃ t, exec i s = .next t ∧ RdFaulted s t cause.code info ∧ t.source = src :=
  ⟨_, exec_of_rdReady hi hready, hrun ▸ raise_rdFaulted cause info rfl,
    hrun ▸ raise_source ..⟩

/-- Work that waits gives no answer (R74). -/
theorem exec_of_runRd_waits {i : Instr} {job job' : RdJob} {s : State} {rd : Rd} {src : Source}
    (hi : (i, job) ∈ readJobs) (hready : s.RdReady)
    (hrun : runRd s.params job s.rd s.source = .waits job' rd src) :
    exec i s = .next { s with rd := rd, source := src, rdJob := some job' } := by
  rw [exec_of_rdReady hi hready, hrun, endRd_waits]

theorem runRd_bit_of_done {p : Params} {rd rd' : Rd} {src src' : Source} {b : Bool}
    (h : readBit .bit rd src = .done b rd' src') :
    runRd p .bit rd src = .done (bitWord b) rd' src' := by
  rw [runRd, h, andThen_done]

/-- Settles O12: below offset 8 the bit is in `RD.cur`, at 8 one pull decides. -/
theorem readBitDeliversTheNextBit : Obligations.ReadBitDeliversTheNextBit := by
  refine ⟨by decide, fun s hready => ⟨fun h8 => ?current, fun b h8 hd hb => ?refilled,
    fun h8 hd hb => ?underrun, fun h8 hf => ?failed⟩⟩
  case current =>
    exact exec_of_runRd_done (by decide) hready (runRd_bit_of_done (if_neg h8))
  case refilled =>
    have hread : readBit .bit s.rd s.source
        = .done (b.getLsbD 7) { s.rd with cur := b, off := 1 } s.source.advanced := by
      rw [readBit, if_pos h8, pull_of_some hd hb]
      rfl
    exact exec_of_runRd_done (by decide) hready (runRd_bit_of_done hread)
  case underrun =>
    have hread : readBit .bit s.rd s.source = .raised .srcUnderrun 0 s.source.answered := by
      rw [readBit, if_pos h8, pull_of_none hd hb]
    exact exec_of_runRd_raised (job := .bit) (by decide) hready (runRd_of_raised trivial hread)
  case failed =>
    have hread : readBit .bit s.rd s.source = .raised .srcIo 0 s.source.answered := by
      rw [readBit, if_pos h8, pull_of_fail hf]
    exact exec_of_runRd_raised (job := .bit) (by decide) hready (runRd_of_raised trivial hread)

/-- Settles O13: one pull decides, at any offset. -/
theorem readByteDeliversTheNextByte : Obligations.ReadByteDeliversTheNextByte := by
  refine ⟨by decide, fun s hready => ⟨fun b hd hb => ?delivered, fun hd hb => ?underrun,
    fun hf => ?failed⟩⟩
  case delivered =>
    exact exec_of_runRd_done (job := .byte) (by decide) hready
      (by rw [runRd, pullByte, pull_of_some hd hb]; rfl)
  case underrun =>
    exact exec_of_runRd_raised (i := .readByte) (job := .byte) (by decide) hready
      (by rw [runRd, pullByte, pull_of_none hd hb])
  case failed =>
    exact exec_of_runRd_raised (i := .readByte) (job := .byte) (by decide) hready
      (by rw [runRd, pullByte, pull_of_fail hf])

/-! ### How far RD work moves the source -/

/-- The source as RD work leaves it. -/
def RdRun.src {α : Type} : RdRun α → Source
  | .done _ _ src | .raised _ _ src | .waits _ _ src => src

theorem endRd_source (s : State) (run : RdRun Word) : (s.endRd run).source = run.src := by
  cases run <;> rfl

/-- RD work keeps the source's bytes, does not move its position back, and moves it by no more than
`n` bits (R52, R237). -/
structure RdRun.SourceWithin {α : Type} (n : Nat) (rd : Rd) (src : Source) (r : RdRun α) :
    Prop where
  bytes : r.src.bytes = src.bytes
  forward : src.idx ≤ r.src.idx
  bound : 8 * r.src.idx ≤ 8 * src.idx + rd.off.val + n

theorem RdRuns.sourceWithin {p : Params} {job : RdJob} {rd : Rd} {src : Source} {r : RdRun Word}
    (h : RdRuns p job rd src r) : r.SourceWithin (job.bitsLeft p) rd src := by
  induction h with
  | bit h | tooLong _ h =>
    obtain ⟨taken, -⟩ := readBit_done h
    have hpos := taken.pos
    exact ⟨taken.bytes, taken.forward, by simp only [RdRun.src, RdJob.bitsLeft]; omega⟩
  | byte h hd =>
    exact ⟨rfl, by simp [RdRun.src], by simp [RdRun.src, RdJob.bitsLeft]; omega⟩
  | code form k got rd src | pullFails _ | bitWithheld _ _ _ | byteWithheld _ =>
    exact ⟨rfl, le_rfl, by simp [RdRun.src]; omega⟩
  | next hnext h hr ih =>
    obtain ⟨taken, -⟩ := readBit_done h
    have hpos := taken.pos
    have hbound := ih.bound
    have hleft := hnext.bitsLeft_lt
    exact ⟨ih.bytes.trans taken.bytes, taken.forward.trans ih.forward, by omega⟩

theorem runRd_sourceWithin (p : Params) (job : RdJob) (rd : Rd) (src : Source) :
    (runRd p job rd src).SourceWithin (job.bitsLeft p) rd src :=
  (runRd_runs p job rd src).sourceWithin

/-- Where an RD command leaves the source: where it was, or where the read's work does (R31). -/
theorem exec_source {s t : State} {i : Instr} (hu : unitOf i = .rd) (h : exec i s = .next t) :
    t.source = s.source ∨ ∃ job, (i, job) ∈ readJobs
      ∧ t.source = (runRd s.params job s.rd s.source).src := by
  by_cases hi : i = .rdReset
  · subst hi
    obtain ⟨-, rfl⟩ := exec_rdReset_next.1 h
    exact .inl rfl
  · obtain ⟨job, hjob⟩ := exists_mem_readJobs hu hi
    rw [exec_of_mem_readJobs hjob] at h
    obtain ⟨-, ⟨-, rfl⟩ | ⟨-, rfl⟩⟩ := rdPreamble_next.1 h
    · exact .inl rfl
    · exact .inr ⟨job, hjob, endRd_source ..⟩

/-- A command answers once or not at all (R94, R74). -/
theorem exec_responses {s t : State} {i : Instr} (h : exec i s = .next t) :
    t.responses = s.responses ∨ ∃ r, t.responses = s.responses ++ [r] :=
  (exec_answersListed h).imp_right fun ⟨r, hr, _⟩ => ⟨r, hr⟩

/-- Settles O21, from the frame of RD's work and what it does to the source. -/
theorem rdCommandsFrame : Obligations.RdCommandsFrame := by
  intro s t i hi h
  have hu : unitOf i = .rd := by
    simp only [List.mem_cons, List.not_mem_nil, or_false] at hi
    obtain rfl | rfl | rfl | rfl | rfl | rfl := hi <;> rfl
  have honly := exec_onlyRd hu h
  obtain ⟨-, -, -, -, -, hbuf, -⟩ := id honly
  refine ⟨honly, fun a => by rw [hbuf], ?_⟩
  obtain hsrc | ⟨job, -, hsrc⟩ := exec_source hu h <;> rw [hsrc]
  · exact ⟨rfl, le_rfl, exec_responses h⟩
  · have hwithin := runRd_sourceWithin s.params job s.rd s.source
    exact ⟨hwithin.bytes, hwithin.forward, exec_responses h⟩

/-- Settles O22: a code has at most 63 bits, and at most 8 of those ahead stand in `RD.cur`. -/
theorem codeReadMakesAtMostEightPulls : Obligations.CodeReadMakesAtMostEightPulls := by
  intro s t i hi hlegal h
  have hu : unitOf i = .rd := by
    simp only [List.mem_cons, List.not_mem_nil, or_false] at hi
    obtain rfl | rfl | rfl := hi <;> rfl
  obtain hsrc | ⟨job, hjob, hsrc⟩ := exec_source hu h <;> rw [hsrc]
  · omega
  · have hleft : job.bitsLeft s.params = 2 * s.params.kMax + 1 := by
      simp only [List.mem_cons, List.not_mem_nil, or_false] at hi
      obtain rfl | rfl | rfl := hi <;> cases (by simpa [readJobs] using hjob) <;>
        simp [RdJob.bitsLeft]
    have hbound := (runRd_sourceWithin s.params job s.rd s.source).bound
    have hmax := hlegal.2
    have hoff := s.rd.off.isLt
    omega

end Sys2Proof.Machine

namespace Sys2Proof.Machine

/-! ### WR work, bit by bit -/

/-- The bit that fills a byte pushes it to a sink that accepts (R130). -/
theorem writeBit_accepted {job : WrJob} {b : Bool} {wr : Wr} {snk : Sink} (hpos : wr.pos = 7)
    (ha : snk.NextAccepts) :
    writeBit job b wr snk = .done wr.emptied (snk.appended (wr.placeBit b)) :=
  (writeBit_last hpos).trans (pushAndEmpty_accepts ha)

/-- How writing a run of bits can go (R130, R136). -/
inductive WritesRun : List Bool → Wr → Sink → WrRun → Prop
  | nil (wr : Wr) (snk : Sink) : WritesRun [] wr snk (.done wr snk)
  | place {b : Bool} {rest : List Bool} {wr : Wr} {snk : Sink} {r : WrRun} (hpos : wr.pos ≠ 7)
      (hr : WritesRun rest { wr with acc := wr.placeBit b, pos := wr.pos + 1 } snk r) :
      WritesRun (b :: rest) wr snk r
  | pushed {b : Bool} {rest : List Bool} {wr : Wr} {snk : Sink} {r : WrRun} (hpos : wr.pos = 7)
      (ha : snk.NextAccepts) (hr : WritesRun rest wr.emptied (snk.appended (wr.placeBit b)) r) :
      WritesRun (b :: rest) wr snk r
  | failed {b : Bool} {rest : List Bool} {wr : Wr} {snk : Sink} {left : List Byte}
      (hpos : wr.pos = 7) (hf : snk.answers.head? = some (.fail left)) :
      WritesRun (b :: rest) wr snk
        (.raised .snkIo 0 { bytes := snk.bytes ++ left, answers := snk.answers.tail })
  | withheld {b : Bool} {rest : List Bool} {wr : Wr} {snk : Sink}
      (hpos : wr.pos = 7) (hw : snk.answers.head? = some .withhold) :
      WritesRun (b :: rest) wr snk (.waits (.bits (b :: rest)) wr snk.answered)

/-- Everything writing a run of bits can do. -/
theorem writeBits_runs : ∀ (bits : List Bool) (wr : Wr) (snk : Sink),
    WritesRun bits wr snk (writeBits bits wr snk)
  | [], wr, snk => .nil wr snk
  | b :: rest, wr, snk => by
    by_cases hpos : wr.pos = 7
    · have hbit := writeBit_last (job := .bits (b :: rest)) (b := b) (snk := snk) hpos
      obtain ⟨ha, hr⟩ | ⟨left, hf, hr⟩ | ⟨hw, hr⟩ :=
        pushAndEmpty_cases (.bits (b :: rest)) (wr.placeBit b) wr snk <;> rw [hr] at hbit
      · exact writeBits_cons_done hbit ▸ .pushed hpos ha (writeBits_runs rest _ _)
      · rw [writeBits, hbit]
        exact .failed hpos hf
      · rw [writeBits, hbit]
        exact .withheld hpos hw
    · exact writeBits_cons_done (writeBit_below hpos) ▸ .place hpos (writeBits_runs rest _ _)

/-! ### The sink as WR work leaves it -/

/-- The sink as WR work leaves it. -/
def WrRun.snk : WrRun → Sink
  | .done _ snk | .raised _ _ snk | .waits _ _ snk => snk

theorem endWr_sink (s : State) (run : WrRun) : (s.endWr run).sink = run.snk := by
  cases run <;> rfl

theorem WritesRun.bytes_prefix {bits : List Bool} {wr : Wr} {snk : Sink} {r : WrRun}
    (h : WritesRun bits wr snk r) : snk.bytes <+: r.snk.bytes := by
  induction h with
  | nil | withheld => exact List.prefix_rfl
  | place _ _ ih => exact ih
  | pushed _ _ _ ih => exact (List.prefix_append ..).trans ih
  | failed => exact List.prefix_append ..

theorem pushAndEmpty_bytes_prefix (job : WrJob) (b : Byte) (wr : Wr) (snk : Sink) :
    snk.bytes <+: (pushAndEmpty job b wr snk).snk.bytes := by
  obtain ⟨-, hr⟩ | ⟨left, -, hr⟩ | ⟨-, hr⟩ := pushAndEmpty_cases job b wr snk <;> rw [hr]
  · exact List.prefix_append ..
  · exact List.prefix_append ..
  · exact List.prefix_rfl

/-- WR work never retracts a byte (R54). -/
theorem runWr_bytes_prefix (job : WrJob) (wr : Wr) (snk : Sink) :
    snk.bytes <+: (runWr job wr snk).snk.bytes := by
  cases job with
  | bits rest => exact (writeBits_runs rest wr snk).bytes_prefix
  | byte v => exact pushAndEmpty_bytes_prefix ..
  | flush =>
    by_cases hpos : wr.pos = 0
    · rw [runWr, flushBits_of_aligned hpos]
      exact List.prefix_rfl
    · rw [runWr, flushBits_of_pending hpos]
      exact pushAndEmpty_bytes_prefix ..

/-! ### What the work of a write comes to -/

/-- What a write does when WR is ready is decided by its operands and `K_MAX`: WR work, or a fault
before any bit (R135, R137, R138). -/
inductive WriteWork (p : Params) (body : State → State) : Prop
  | job (job : WrJob) (h : ∀ s : State, s.params = p → body s = s.workWr job)
  | raises (cause : Status) (info : Word) (hcause : cause = .valueRange ∨ cause = .badWidth)
      (h : ∀ s : State, s.params = p → body s = s.raise .wr cause info)

theorem writeCode_work (p : Params) (code : Nat) (info : Word) :
    WriteWork p (State.writeCode code info) := by
  by_cases hcode : code > ueMax p
  · exact .raises .valueRange info (.inl rfl) fun s hp => if_pos (hp ▸ hcode)
  · exact .job (.bits (codeBits code)) fun s hp => if_neg (hp ▸ hcode)

theorem writeBody_work {i : Instr} {body : State → State} (h : writeBody i = some body)
    (p : Params) : WriteWork p body := by
  cases i <;> cases h
  case writeNBits n value =>
    by_cases hn : n.toNat > nMax
    · exact .raises .badWidth (n.setWidth 32) (.inr rfl) fun s _ => if_pos hn
    · exact .job (.bits (fieldBits n.toNat value.toNat)) fun s _ => if_neg hn
  case writeUe value => exact writeCode_work p value.toNat value
  case writeSe value => exact writeCode_work p (signedToCode value.toInt) value
  all_goals exact .job _ fun _ _ => rfl

/-- What a WR command can do: reset, refuse, raise before any bit, or the work of a job. -/
theorem exec_wr_cases {s t : State} {i : Instr} (hu : unitOf i = .wr) (h : exec i s = .next t) :
    (i = .wrReset ∧ s.wrJob = none ∧ t = { s with wr := Wr.reset, responses := s.plus 0x00 0 0 })
    ∨ s.wrJob = none ∧
      ((s.wr.st = .fault ∧ t = s.refuseFaulted s.wr.fault)
      ∨ (s.wr.st = .ready ∧ ∃ cause info, (cause = .valueRange ∨ cause = .badWidth)
          ∧ t = s.raise .wr cause info)
      ∨ (s.wr.st = .ready ∧ ∃ job, t = s.workWr job)) := by
  by_cases hi : i = .wrReset
  · subst hi
    exact .inl ⟨rfl, exec_wrReset_next.1 h⟩
  · obtain ⟨body, hbody⟩ := exists_writeBody hu hi
    rw [exec_of_writeBody hbody] at h
    obtain ⟨hjob, hfault | ⟨hready, rfl⟩⟩ := wrPreamble_next.1 h
    · exact .inr ⟨hjob, .inl hfault⟩
    · refine .inr ⟨hjob, .inr ?_⟩
      cases writeBody_work hbody s.params with
      | job job hwork => exact .inr ⟨hready, job, hwork s rfl⟩
      | raises cause info hcause hraise =>
        exact .inl ⟨hready, cause, info, hcause, hraise s rfl⟩

/-! ### The sink only grows -/

theorem workWr_bytes_prefix (s : State) (job : WrJob) :
    s.sink.bytes <+: (s.workWr job).sink.bytes := by
  rw [State.workWr, endWr_sink]
  exact runWr_bytes_prefix job s.wr s.sink

theorem exec_bytes_prefix {s t : State} {i : Instr} (h : exec i s = .next t) :
    s.sink.bytes <+: t.sink.bytes := by
  cases hu : unitOf i with
  | rd =>
    obtain ⟨-, -, -, -, hsink, -⟩ := exec_onlyRd hu h
    exact hsink ▸ List.prefix_rfl
  | ns =>
    obtain ⟨-, -, -, -, -, -, hsink, -⟩ := exec_onlyNs hu h
    exact hsink ▸ List.prefix_rfl
  | wr =>
    obtain ⟨-, -, rfl⟩ | ⟨-, ⟨-, rfl⟩ | ⟨-, cause, info, -, rfl⟩ | ⟨-, job, rfl⟩⟩ :=
      exec_wr_cases hu h
    · exact List.prefix_rfl
    · exact List.prefix_rfl
    · exact (raise_sink s .wr cause info) ▸ List.prefix_rfl
    · exact workWr_bytes_prefix s job

theorem resumeWr_bytes_prefix (s : State) : s.sink.bytes <+: s.resumeWr.sink.bytes := by
  unfold State.resumeWr
  split
  · exact List.prefix_rfl
  · exact workWr_bytes_prefix s _

/-- Settles O39: only WR's work and the binding of a sink write the sink. -/
theorem sinkOnlyGrows : Obligations.SinkOnlyGrows := by
  intro s t hbind h
  suffices hprefix : s.sink.bytes <+: t.sink.bytes from hprefix.imp fun _ => Eq.symm
  obtain ⟨-, rfl⟩ | ⟨input, rest, hin, ⟨w, i, -, -, he⟩ | ⟨w, why, -, -, rfl⟩ | ⟨-, rfl⟩
    | ⟨src, -, rfl⟩ | ⟨snk, rfl, rfl⟩ | ⟨bytes, -, -, -, rfl⟩ | ⟨-, rfl⟩ | ⟨-, rfl⟩⟩ := step_cases h
  · exact List.prefix_rfl
  · exact (exec_bytes_prefix he :)
  · exact List.prefix_rfl
  · exact List.prefix_rfl
  · exact List.prefix_rfl
  · exact absurd hin (hbind snk rest)
  · exact List.prefix_rfl
  · obtain ⟨-, -, -, -, hsink, -⟩ := resumeRd_onlyRd { s with inputs := rest }
    rw [hsink]
  · exact resumeWr_bytes_prefix { s with inputs := rest }

/-- The WR commands by their opcodes (R92). -/
theorem unitOf_eq_wr_of_opcode {i : Instr}
    (h : (encodeOp i).toNat ∈ [0x11, 0x12, 0x13, 0x14, 0x15, 0x16, 0x17, 0x1F]) :
    unitOf i = .wr := by
  cases i <;> simp_all [unitOf, encodeOp]

/-- Settles O38, from the frame of WR's work. -/
theorem wrCommandsFrame : Obligations.WrCommandsFrame := by
  intro s t i hi h
  have honly := exec_onlyWr (unitOf_eq_wr_of_opcode hi) h
  obtain ⟨-, -, -, -, -, hbuf, -⟩ := id honly
  exact ⟨honly, fun a => by rw [hbuf], exec_responses h⟩

end Sys2Proof.Machine

namespace Sys2Proof.Machine

/-! ### The invariant, unit by unit -/

/-- RD's part of the invariant. -/
structure State.RdInv (s : State) : Prop where
  rd : s.rd.Inv
  rdJob : ∀ job, s.rdJob = some job → s.rd.st = .ready ∧ s.rd.off = 8 ∧ job.Inv s.params

/-- WR's part of the invariant. -/
structure State.WrInv (s : State) : Prop where
  wr : s.wr.Inv
  wrJob : ∀ job, s.wrJob = some job → s.wr.st = .ready ∧ job.Inv s.wr

/-- NS's part of the invariant, with the scanner buffer. -/
structure State.NsInv (s : State) : Prop where
  ns : s.ns.Inv s.scanBuf
  buf : s.buf.wf = true
  scanBuf : s.scanBuf.wf = true
  scan : s.ns.st = .ready → s.scanBuf = s.buf

theorem State.inv_iff {s : State} :
    s.Inv ↔ s.params.Legal ∧ s.RdInv ∧ s.WrInv ∧ s.NsInv := by
  constructor
  · rintro ⟨hparams, hrd, hwr, hns, hbuf, hscanBuf, hscan, hrdJob, hwrJob⟩
    exact ⟨hparams, ⟨hrd, hrdJob⟩, ⟨hwr, hwrJob⟩, ⟨hns, hbuf, hscanBuf, hscan⟩⟩
  · rintro ⟨hparams, ⟨hrd, hrdJob⟩, ⟨hwr, hwrJob⟩, ⟨hns, hbuf, hscanBuf, hscan⟩⟩
    exact ⟨hparams, hrd, hwr, hns, hbuf, hscanBuf, hscan, hrdJob, hwrJob⟩

theorem State.RdInv.congr {s t : State} (h : s.RdInv) (hparams : t.params = s.params)
    (hrd : t.rd = s.rd) (hjob : t.rdJob = s.rdJob) : t.RdInv :=
  ⟨hrd ▸ h.rd, fun job hj => by rw [hrd, hparams]; exact h.rdJob job (hjob ▸ hj)⟩

theorem State.WrInv.congr {s t : State} (h : s.WrInv) (hwr : t.wr = s.wr)
    (hjob : t.wrJob = s.wrJob) : t.WrInv :=
  ⟨hwr ▸ h.wr, fun job hj => by rw [hwr]; exact h.wrJob job (hjob ▸ hj)⟩

theorem State.NsInv.congr {s t : State} (h : s.NsInv) (hns : t.ns = s.ns) (hbuf : t.buf = s.buf)
    (hscanBuf : t.scanBuf = s.scanBuf) : t.NsInv := by
  refine ⟨?_, hbuf ▸ h.buf, hscanBuf ▸ h.scanBuf, ?_⟩ <;> rw [hns, hscanBuf]
  · exact h.ns
  · exact hbuf ▸ h.scan

/-- What leaves everything but RD alone keeps the invariant when it keeps RD's part. -/
theorem State.Inv.of_onlyRd {s t : State} (h : s.Inv) (honly : OnlyRd s t) (hrd : t.RdInv) :
    t.Inv := by
  obtain ⟨hlegal, -, hwr, hns⟩ := State.inv_iff.1 h
  obtain ⟨hparams, hwrEq, hnsEq, hwrJob, -, hbuf, hscanBuf, -⟩ := honly
  exact State.inv_iff.2
    ⟨hparams ▸ hlegal, hrd, hwr.congr hwrEq hwrJob, hns.congr hnsEq hbuf hscanBuf⟩

theorem State.Inv.of_onlyWr {s t : State} (h : s.Inv) (honly : OnlyWr s t) (hwr : t.WrInv) :
    t.Inv := by
  obtain ⟨hlegal, hrd, -, hns⟩ := State.inv_iff.1 h
  obtain ⟨hparams, hrdEq, hnsEq, hrdJob, -, hbuf, hscanBuf, -⟩ := honly
  exact State.inv_iff.2
    ⟨hparams ▸ hlegal, hrd.congr hparams hrdEq hrdJob, hwr, hns.congr hnsEq hbuf hscanBuf⟩

theorem State.Inv.of_onlyNs {s t : State} (h : s.Inv) (honly : OnlyNs s t) (hns : t.NsInv) :
    t.Inv := by
  obtain ⟨hlegal, hrd, hwr, -⟩ := State.inv_iff.1 h
  obtain ⟨hparams, hrdEq, hwrEq, hrdJob, hwrJob, -⟩ := honly
  exact State.inv_iff.2
    ⟨hparams ▸ hlegal, hrd.congr hparams hrdEq hrdJob, hwr.congr hwrEq hwrJob, hns⟩

/-! ### RD's work keeps RD's invariant -/

/-- A ready RD as R32 and R30 have it. -/
structure Rd.Sound (rd : Rd) : Prop where
  st : rd.st = .ready
  off : rd.off ≠ 0
  fault : rd.fault = 0x00

theorem Rd.Inv.sound {rd : Rd} (h : rd.Inv) (hst : rd.st = .ready) : rd.Sound :=
  ⟨hst, (h.1 hst).1, (h.1 hst).2⟩

theorem Rd.Sound.inv {rd : Rd} (h : rd.Sound) : rd.Inv :=
  ⟨fun _ => ⟨h.off, h.fault⟩, fun hst => by cases h.st.symm.trans hst⟩

/-- A faulted RD with a cause RD has (R181). -/
theorem Rd.inv_of_fault {rd : Rd} (hst : rd.st = .fault) (h : rd.fault ∈ [0x10, 0x11, 0x30]) :
    rd.Inv :=
  ⟨fun hready => (by cases hst.symm.trans hready), fun _ => h⟩

theorem Rd.reset_sound : Rd.reset.Sound := ⟨rfl, by decide, rfl⟩

theorem Rd.Sound.of_readBit {job : RdJob} {rd rd' : Rd} {src src' : Source} {b : Bool}
    (h : rd.Sound) (hr : readBit job rd src = .done b rd' src') : rd'.Sound := by
  obtain ⟨taken, hoff⟩ := readBit_done hr
  exact ⟨taken.st.trans h.st, hoff, taken.fault.trans h.fault⟩

/-- RD work ends with a sound RD, with a cause RD has, or part-way at a refill. -/
def RdRun.KeepsInv (p : Params) : RdRun Word → Prop
  | .done _ rd _ => rd.Sound
  | .raised cause _ _ => cause.code ∈ ([0x10, 0x11, 0x30] : List Byte)
  | .waits job rd _ => rd.Sound ∧ rd.off = 8 ∧ job.Inv p

/-- The job that is left after a bit is part-way through a code of the domain, if it awaits
another. -/
theorem RdJob.Next.inv {p : Params} {job job' : RdJob} {b : Bool} (h : job.Next p b job')
    (hinv : job.Inv p) (hawaits : job'.AwaitsBit) : job'.Inv p := by
  cases h with
  | one form k => exact ⟨hinv, Nat.one_le_iff_ne_zero.2 hawaits, le_rfl, by simp⟩
  | zero form hk => exact hk
  | suffix form k left got b =>
    obtain ⟨hk, -, hleft, hgot⟩ := hinv
    refine ⟨hk, Nat.one_le_iff_ne_zero.2 hawaits, by omega, ?_⟩
    rw [show k - left = k - (left + 1) + 1 by omega, pow_succ]
    have := b.toNat_le
    omega

theorem RdJob.Next.awaitsBit {p : Params} {job job' : RdJob} {b : Bool} (h : job.Next p b job') :
    job.AwaitsBit := by
  cases h with
  | one | zero => trivial
  | suffix form k left got b => exact Nat.succ_ne_zero left

theorem RdRuns.keepsInv {p : Params} {job : RdJob} {rd : Rd} {src : Source} {r : RdRun Word}
    (h : RdRuns p job rd src r) (hrd : rd.Sound) (hjob : job.AwaitsBit → job.Inv p) :
    r.KeepsInv p := by
  have aligned : ∀ {rd : Rd}, rd.Sound → Rd.Sound { rd with off := 8 } :=
    fun h => ⟨h.st, show (8 : Fin 9) ≠ 0 by decide, h.fault⟩
  induction h with
  | bit h => exact hrd.of_readBit h
  | byte => exact aligned hrd
  | byteWithheld => exact ⟨aligned hrd, rfl, trivial⟩
  | code => exact hrd
  | tooLong => simp [RdRun.KeepsInv, Status.code]
  | pullFails hcause => obtain rfl | rfl := hcause <;> simp [RdRun.KeepsInv, Status.code]
  | bitWithheld hawaits h8 => exact ⟨hrd, h8, hjob hawaits⟩
  | next hnext h _ ih => exact ih (hrd.of_readBit h) (hnext.inv (hjob hnext.awaitsBit))

theorem endRd_rdInv {s : State} {run : RdRun Word} (h : run.KeepsInv s.params) :
    (s.endRd run).RdInv := by
  cases run with
  | done r0 rd src => exact ⟨h.inv, fun job hj => by cases hj⟩
  | raised cause info src => exact ⟨Rd.inv_of_fault rfl h, fun job hj => by cases hj⟩
  | waits job rd src =>
    obtain ⟨hrd, h8, hjob⟩ := h
    exact ⟨hrd.inv, fun job' hj => by cases hj; exact ⟨hrd.st, h8, hjob⟩⟩

/-- RD work keeps the invariant. -/
theorem workRd_inv {s : State} {job : RdJob} (h : s.Inv) (hst : s.rd.st = .ready)
    (hjob : job.Inv s.params) : (s.workRd job).Inv :=
  h.of_onlyRd (endRd_onlyRd s _)
    (endRd_rdInv ((runRd_runs ..).keepsInv (h.rd.sound hst) fun _ => hjob))

/-! ### WR's work keeps WR's invariant -/

/-- A ready WR as R33 and R30 have it. -/
structure Wr.Sound (wr : Wr) : Prop where
  st : wr.st = .ready
  low : wr.LowBitsZero
  fault : wr.fault = 0x00

theorem Wr.Inv.sound {wr : Wr} (h : wr.Inv) (hst : wr.st = .ready) : wr.Sound :=
  ⟨hst, (h.1 hst).1, (h.1 hst).2⟩

theorem Wr.Sound.inv {wr : Wr} (h : wr.Sound) : wr.Inv :=
  ⟨fun _ => ⟨h.low, h.fault⟩, fun hst => by cases h.st.symm.trans hst⟩

/-- A faulted WR with a cause WR has (R181). -/
theorem Wr.inv_of_fault {wr : Wr} (hst : wr.st = .fault) (h : wr.fault ∈ [0x12, 0x31, 0x32]) :
    wr.Inv :=
  ⟨fun hready => (by cases hst.symm.trans hready), fun _ => h⟩

theorem Wr.reset_sound : Wr.reset.Sound := ⟨rfl, rfl, rfl⟩

theorem Wr.Sound.emptied {wr : Wr} (h : wr.Sound) : wr.emptied.Sound :=
  ⟨h.st, by simp [Wr.LowBitsZero, Wr.emptied], h.fault⟩

/-- A bit placed below position 7 leaves the bits after it zero (R33, R130). -/
theorem placeBit_lowBitsZero {wr : Wr} (h : wr.LowBitsZero) (hpos : wr.pos ≠ 7) (b : Bool) :
    Wr.LowBitsZero { wr with acc := wr.placeBit b, pos := wr.pos + 1 } := by
  obtain ⟨wr', snk', hbit, -, hlow, -⟩ :=
    writeBit_of_accepts (job := .flush) (b := b) (snk := { bytes := [], answers := [] }) h
      (fun _ ha => by cases ha)
  cases (writeBit_below hpos).symm.trans hbit
  exact hlow

/-- WR work ends with a sound WR, with a cause WR has, or part-way at a push. -/
def WrRun.KeepsInv : WrRun → Prop
  | .done wr _ => wr.Sound
  | .raised cause _ _ => cause = .snkIo
  | .waits job wr _ => wr.Sound ∧ job.Inv wr

theorem pushAndEmpty_keepsInv {job : WrJob} {b : Byte} {wr : Wr} {snk : Sink} (hwr : wr.Sound)
    (hjob : job.Inv wr) : (pushAndEmpty job b wr snk).KeepsInv := by
  obtain ⟨-, hr⟩ | ⟨left, -, hr⟩ | ⟨-, hr⟩ := pushAndEmpty_cases job b wr snk <;> rw [hr]
  · exact hwr.emptied
  · exact rfl
  · exact ⟨hwr, hjob⟩

theorem WritesRun.keepsInv {bits : List Bool} {wr : Wr} {snk : Sink} {r : WrRun}
    (h : WritesRun bits wr snk r) (hwr : wr.Sound) : r.KeepsInv := by
  induction h with
  | nil => exact hwr
  | place hpos _ ih => exact ih ⟨hwr.st, placeBit_lowBitsZero hwr.low hpos _, hwr.fault⟩
  | pushed _ _ _ ih => exact ih hwr.emptied
  | failed => exact rfl
  | withheld hpos => exact ⟨hwr, List.cons_ne_nil _ _, hpos⟩

theorem runWr_keepsInv (job : WrJob) {wr : Wr} (snk : Sink) (hwr : wr.Sound) :
    (runWr job wr snk).KeepsInv := by
  cases job with
  | bits rest => exact (writeBits_runs rest wr snk).keepsInv hwr
  | byte v => exact pushAndEmpty_keepsInv hwr.emptied rfl
  | flush =>
    by_cases hpos : wr.pos = 0
    · rw [runWr, flushBits_of_aligned hpos]
      exact hwr
    · rw [runWr, flushBits_of_pending hpos]
      exact pushAndEmpty_keepsInv hwr hpos

theorem endWr_wrInv {s : State} {run : WrRun} (h : run.KeepsInv) : (s.endWr run).WrInv := by
  cases run with
  | done wr snk => exact ⟨h.inv, fun job hj => by cases hj⟩
  | raised cause info snk =>
    cases h
    exact ⟨Wr.inv_of_fault rfl (.head _), fun job hj => by cases hj⟩
  | waits job wr snk =>
    obtain ⟨hwr, hjob⟩ := h
    exact ⟨hwr.inv, fun job' hj => by cases hj; exact ⟨hwr.st, hjob⟩⟩

/-- WR work keeps the invariant. -/
theorem workWr_inv {s : State} (job : WrJob) (h : s.Inv) (hst : s.wr.st = .ready) :
    (s.workWr job).Inv :=
  h.of_onlyWr (workWr_onlyWr s job) (endWr_wrInv (runWr_keepsInv job s.sink (h.wr.sound hst)))

/-! ### NS's commands keep NS's invariant -/

/-- A buffer offset inside a buffer of `len` bytes is held exactly (R57). -/
theorem toNat_ofNat_of_le {n : Nat} {len : Word} (h : n ≤ len.toNat) :
    (BitVec.ofNat 32 n).toNat = n :=
  Nat.mod_eq_of_lt (h.trans_lt len.isLt)

theorem beginScan_nsInv {s : State} {len : Word} (h : s.NsInv) : (s.beginScan len).NsInv := by
  obtain ⟨hcode, hs⟩ | ⟨-, ⟨hst, hfault, -, honly⟩, hscanBuf⟩ := beginScan_cases s len
  · obtain ⟨hthree, hle⟩ := startCodeAt_le hcode
    rw [Nat.zero_add] at hle
    rw [hs]
    refine ⟨?_, h.buf, h.buf, fun _ => rfl⟩
    simp [Ns.Inv, toNat_ofNat_of_le hle, hthree, hle, hcode]
  · obtain ⟨-, -, -, -, -, -, -, hbuf, -⟩ := honly
    refine ⟨⟨?_, ?_, ?_, fun _ => hfault⟩, hbuf ▸ h.buf, hscanBuf ▸ h.buf, ?_⟩ <;> simp [hst]

/-- The range of a unit ends where the next one begins (R163): the position moves forward, inside
the buffer. -/
theorem nextUnit_moves {s : State} (h : s.ns.pos.toNat ≤ s.ns.len.toNat)
    (hpos : s.ns.pos ≠ s.ns.len) :
    ∃ pos resp, s.nextUnit = { s with ns := { s.ns with pos := pos }, responses := resp }
      ∧ s.ns.pos.toNat < pos.toNat ∧ pos.toNat ≤ s.ns.len.toNat := by
  cases hf : findStartCode s.scanBuf s.ns.len.toNat (s.ns.len.toNat - s.ns.pos.toNat)
      s.ns.pos.toNat with
  | none =>
    have hne : s.ns.pos.toNat ≠ s.ns.len.toNat := fun he => hpos (BitVec.eq_of_toNat_eq he)
    exact ⟨_, _, nextUnit_of_none hpos hf, by omega, le_rfl⟩
  | some found =>
    obtain ⟨i, c⟩ := found
    obtain ⟨hi, -, rfl, hcode, -⟩ := findStartCode_some hf
    obtain ⟨hthree, hle⟩ := startCodeAt_le hcode
    refine ⟨_, _, nextUnit_of_found hpos hf, ?_, ?_⟩ <;> rw [toNat_ofNat_of_le hle] <;> omega

theorem Ns.reset_inv (m : Memory) : Ns.reset.Inv m := by
  simp [Ns.Inv, Ns.reset]

theorem nextUnit_nsInv {s : State} (h : s.NsInv) (hst : s.ns.st = .ready) : s.nextUnit.NsInv := by
  obtain ⟨hscan, -, hfault, -⟩ := h.ns
  obtain ⟨hthree, hle, hcode⟩ := hscan (.inl hst)
  by_cases hpos : s.ns.pos = s.ns.len
  · rw [nextUnit_at_end hpos]
    refine ⟨?_, h.buf, h.scanBuf, fun hst' => by cases hst'⟩
    simp [Ns.Inv, hpos, hpos ▸ hthree, hcode, hfault (by simp [hst])]
  · obtain ⟨pos, resp, hs, hlt, hle'⟩ := nextUnit_moves hle hpos
    rw [hs]
    refine ⟨?_, h.buf, h.scanBuf, h.scan⟩
    simp [Ns.Inv, hst, hle', hcode, hfault (by simp [hst]), show 3 ≤ pos.toNat by omega]

/-- Settles O50: the search yields a range that ends further on, or the sequence has ended. -/
theorem scanMovesForward : Obligations.ScanMovesForward := by
  intro s t hinv hst h
  obtain ⟨-, hle, -⟩ := hinv.1 (.inl hst)
  cases (exec_nsNext_ready hst).symm.trans h
  by_cases hpos : s.ns.pos = s.ns.len
  · exact .inl ⟨hpos, congrArg (fun t => t.ns.st) (nextUnit_at_end hpos)⟩
  · obtain ⟨pos, resp, hs, hlt, hle'⟩ := nextUnit_moves hle hpos
    rw [hs]
    exact .inr ⟨hst, rfl, hlt, hle'⟩

/-! ### Every step keeps the invariant -/

theorem exec_rd_inv {s t : State} {i : Instr} (hinv : s.Inv) (hu : unitOf i = .rd)
    (h : exec i s = .next t) : t.Inv := by
  by_cases hi : i = .rdReset
  · have honly := exec_onlyRd hu h
    subst hi
    obtain ⟨hjob, rfl⟩ := exec_rdReset_next.1 h
    exact hinv.of_onlyRd honly ⟨Rd.reset_sound.inv,
      fun job hj => by cases hjob.symm.trans hj⟩
  · obtain ⟨job, hjob⟩ := exists_mem_readJobs hu hi
    have honly := exec_onlyRd hu h
    rw [exec_of_mem_readJobs hjob] at h
    obtain ⟨-, ⟨-, rfl⟩ | ⟨hst, rfl⟩⟩ := rdPreamble_next.1 h
    · exact hinv.of_onlyRd honly ((State.inv_iff.1 hinv).2.1.congr rfl rfl rfl)
    · refine workRd_inv hinv hst ?_
      simp only [readJobs, List.mem_cons, Prod.mk.injEq, List.not_mem_nil, or_false] at hjob
      obtain ⟨-, rfl⟩ | ⟨-, rfl⟩ | ⟨-, rfl⟩ | ⟨-, rfl⟩ | ⟨-, rfl⟩ := hjob <;> simp [RdJob.Inv]

theorem exec_wr_inv {s t : State} {i : Instr} (hinv : s.Inv) (hu : unitOf i = .wr)
    (h : exec i s = .next t) : t.Inv := by
  have honly := exec_onlyWr hu h
  obtain ⟨-, hjob, rfl⟩ | ⟨hjob, ⟨-, rfl⟩ | ⟨-, cause, info, hcause, rfl⟩ | ⟨hst, job, rfl⟩⟩ :=
    exec_wr_cases hu h
  · exact hinv.of_onlyWr honly ⟨Wr.reset_sound.inv,
      fun job hj => by cases hjob.symm.trans hj⟩
  · exact hinv.of_onlyWr honly ((State.inv_iff.1 hinv).2.2.1.congr rfl rfl)
  · refine hinv.of_onlyWr honly ⟨Wr.inv_of_fault rfl ?_,
      fun job hj => by cases hjob.symm.trans hj⟩
    obtain rfl | rfl := hcause <;> simp [Status.code]
  · exact workWr_inv job hinv hst

theorem exec_ns_inv {s t : State} {i : Instr} (hinv : s.Inv) (hu : unitOf i = .ns)
    (h : exec i s = .next t) : t.Inv := by
  have honly := exec_onlyNs hu h
  obtain ⟨-, -, -, hns⟩ := State.inv_iff.1 hinv
  refine hinv.of_onlyNs honly ?_
  cases i with
  | nsInit len =>
    cases h
    exact beginScan_nsInv hns
  | nsNext =>
    obtain ⟨-, rfl⟩ | ⟨-, rfl⟩ | ⟨-, rfl⟩ | ⟨hst, rfl⟩ := nsPreamble_next.1 h
    · exact hns.congr rfl rfl rfl
    · exact hns.congr rfl rfl rfl
    · exact hns.congr rfl rfl rfl
    · exact nextUnit_nsInv hns hst
  | nsReset =>
    cases (exec_nsReset s).symm.trans h
    exact ⟨Ns.reset_inv _, hns.buf, hns.scanBuf, fun hst => by cases hst⟩
  | _ => cases hu

theorem exec_inv {s t : State} {i : Instr} (hinv : s.Inv) (h : exec i s = .next t) : t.Inv := by
  cases hu : unitOf i with
  | rd => exact exec_rd_inv hinv hu h
  | wr => exact exec_wr_inv hinv hu h
  | ns => exact exec_ns_inv hinv hu h

theorem resumeRd_inv {s : State} (h : s.Inv) : s.resumeRd.Inv := by
  unfold State.resumeRd
  split
  · exact h
  · next job hj =>
    obtain ⟨hst, -, hjob⟩ := h.rdJob job hj
    exact workRd_inv h hst hjob

theorem resumeWr_inv {s : State} (h : s.Inv) : s.resumeWr.Inv := by
  unfold State.resumeWr
  split
  · exact h
  · next job hj => exact workWr_inv job h (h.wrJob job hj).1

theorem hardwareReset_inv {s : State} (h : s.Inv) : s.hardwareReset.Inv :=
  State.inv_iff.2 ⟨h.params,
    ⟨Rd.reset_sound.inv, fun job hj => by cases hj⟩,
    ⟨Wr.reset_sound.inv, fun job hj => by cases hj⟩,
    ⟨Ns.reset_inv _, h.buf, h.scanBuf, fun hst => by cases hst⟩⟩

/-- A buffer placed while no scan is going on keeps the invariant (R57, R225). -/
theorem place_inv {s : State} {bytes : List Byte} (h : s.Inv) (hst : s.ns.st ≠ .ready)
    (hlen : bytes.length ≤ bufferSpace) : State.Inv { s with buf := s.buf.place 0 bytes } :=
  { h with
    buf := Memory.wf_place (by omega) h.buf
    scan := fun hst' => absurd hst' hst }

/-- Settles O58, input by input. -/
theorem everyStepKeepsTheInvariant : Obligations.EveryStepKeepsTheInvariant := by
  intro s t hinv h
  obtain ⟨-, rfl⟩ | ⟨input, rest, -, hcase⟩ := step_cases h
  · exact hinv
  have hinv' : State.Inv { s with inputs := rest } := { hinv with }
  obtain ⟨w, i, -, -, he⟩ | ⟨w, why, -, -, rfl⟩ | ⟨-, rfl⟩ | ⟨src, -, rfl⟩ | ⟨snk, -, rfl⟩
    | ⟨bytes, -, hst, hlen, rfl⟩ | ⟨-, rfl⟩ | ⟨-, rfl⟩ := hcase
  · exact exec_inv hinv' he
  · exact { hinv' with }
  · exact hardwareReset_inv hinv'
  · exact { hinv' with }
  · exact { hinv' with }
  · exact place_inv hinv' hst hlen
  · exact resumeRd_inv hinv'
  · exact resumeWr_inv hinv'

/-- Settles O59: the reset values meet each unit's part, and nothing waits. -/
theorem resetMeetsTheInvariant : Obligations.ResetMeetsTheInvariant :=
  State.inv_iff.2 ⟨by decide,
    ⟨Rd.reset_sound.inv, fun job hj => by cases hj⟩,
    ⟨Wr.reset_sound.inv, fun job hj => by cases hj⟩,
    ⟨Ns.reset_inv _, Memory.wf_reset, Memory.wf_reset_scanBuf, fun _ => rfl⟩⟩

/-! ### NS: init and frame -/

/-- Settles O46: the two ends of `ns_init`, and who ends NS's fault. -/
theorem nsInitChecksThePrefix : Obligations.NsInitChecksThePrefix := by
  refine ⟨by decide, fun s len => ⟨fun hcode => ?good, fun hcode => ?bad,
    fun t i hf h hended => ?leaves⟩⟩
  case good =>
    obtain ⟨-, hs⟩ | ⟨hzero, -⟩ := beginScan_cases s len
    · exact congrArg _ hs
    · exact absurd hzero hcode
  case bad =>
    obtain ⟨hne, -⟩ | ⟨-, hfault, hscanBuf⟩ := beginScan_cases s len
    · exact absurd hcode hne
    · exact ⟨_, rfl, hfault, hscanBuf⟩
  case leaves =>
    obtain ⟨hi, -⟩ | ⟨-, len, rfl, -⟩ := exec_ends_fault (u := .ns) h hf hended
    · exact .inl hi
    · refine .inr ⟨len, rfl, fun hzero => hended ?_⟩
      cases h
      obtain ⟨hne, -⟩ | ⟨-, ⟨hst, -⟩, -⟩ := beginScan_cases s len
      · exact absurd hzero hne
      · exact hst

/-- `ns_next` leaves NS's own buffer (R57). -/
theorem nextUnit_scanBuf (s : State) : s.nextUnit.scanBuf = s.scanBuf := by
  by_cases hpos : s.ns.pos = s.ns.len
  · rw [nextUnit_at_end hpos]
  cases hf : findStartCode s.scanBuf s.ns.len.toNat (s.ns.len.toNat - s.ns.pos.toNat)
      s.ns.pos.toNat with
  | none => rw [nextUnit_of_none hpos hf]
  | some found => rw [nextUnit_of_found hpos hf]

/-- `ns_init` takes the placed buffer (R57, R162; log entry 16). -/
theorem beginScan_scanBuf (s : State) (len : Word) : (s.beginScan len).scanBuf = s.buf := by
  obtain ⟨-, hs⟩ | ⟨-, -, hscanBuf⟩ := beginScan_cases s len
  · exact congrArg State.scanBuf hs
  · exact hscanBuf

/-- NS's own buffer changes by `ns_init` only. -/
theorem exec_ns_scanBuf {s t : State} {i : Instr} (hu : unitOf i = .ns) (h : exec i s = .next t) :
    t.scanBuf = if encodeOp i = 0x21 then s.buf else s.scanBuf := by
  cases i with
  | nsInit len =>
    cases h
    exact beginScan_scanBuf s len
  | nsNext =>
    obtain ⟨-, rfl⟩ | ⟨-, rfl⟩ | ⟨-, rfl⟩ | ⟨-, rfl⟩ := nsPreamble_next.1 h
    · rfl
    · rfl
    · rfl
    · exact nextUnit_scanBuf s
  | nsReset =>
    cases (exec_nsReset s).symm.trans h
    rfl
  | _ => cases hu

/-- An NS command answers once: NS waits for nothing (R94). -/
theorem exec_ns_responses {s t : State} {i : Instr} (hu : unitOf i = .ns)
    (h : exec i s = .next t) : ∃ r, t.responses = s.responses ++ [r] := by
  cases exec_ending h with
  | success r0 r1 hresp | endOfUnits hi hresp => exact ⟨_, hresp⟩
  | rdFault status info hcause hfault | wrFault status info hcause hfault | nsFault hfault =>
    obtain ⟨-, -, hresp, -⟩ := hfault
    exact ⟨_, hresp⟩
  | refusal status r0 hstatus hsame => exact ⟨_, congrArg State.responses hsame⟩
  | rdWaits hu' | wrWaits hu' => cases hu.symm.trans hu'

/-- Settles O49, from the frame of NS's commands. -/
theorem nsCommandsFrame : Obligations.NsCommandsFrame := by
  intro s t i hi h
  have hu : unitOf i = .ns := by cases i <;> simp_all [unitOf, encodeOp]
  have honly := exec_onlyNs hu h
  obtain ⟨-, -, -, -, -, -, -, hbuf, -⟩ := id honly
  exact ⟨honly, fun a => by rw [hbuf], exec_ns_scanBuf hu h, exec_ns_responses hu h⟩

end Sys2Proof.Machine

namespace Sys2Proof.Machine

/-! ### The code -/

/-- The value of a fixed-width field is what its bits say (R59, R81). -/
theorem bitsValue_fieldBits : ∀ n acc v : Nat,
    bitsValue acc (fieldBits n v) = 2 ^ n * acc + v % 2 ^ n
  | 0, acc, v => by simp [fieldBits, bitsValue, Nat.mod_one]
  | n + 1, acc, v => by
    rw [fieldBits, bitsValue, bitsValue_fieldBits n, Nat.mod_pow_succ,
      Nat.testBit_eq_decide_div_mod_eq, pow_succ]
    rcases Nat.mod_two_eq_zero_or_one (v / 2 ^ n) with h | h <;> simp [h] <;> ring

/-- A field wide enough for its value gives it back. -/
theorem bitsValue_fieldBits_of_lt {n v : Nat} (h : v < 2 ^ n) :
    bitsValue 0 (fieldBits n v) = v := by
  rw [bitsValue_fieldBits, Nat.mod_eq_of_lt h, Nat.mul_zero, Nat.zero_add]

theorem bucket_eq {v k : Nat} (h : 2 ^ k - 1 ≤ v) (h' : v ≤ 2 ^ (k + 1) - 2) : bucket v = k := by
  have := Nat.two_pow_pos k
  rw [pow_succ] at h'
  exact (Nat.log2_eq_iff (Nat.succ_ne_zero v)).2 ⟨by omega, by rw [pow_succ]; omega⟩

/-- The suffix of a value's code fits its `bucket v` bits (R82). -/
theorem suffix_lt (v : Nat) : v - (2 ^ bucket v - 1) < 2 ^ bucket v := by
  have := bucket_bounds v
  rw [pow_succ] at this
  omega

/-- A value is its bucket and its suffix (R82, R113). -/
theorem codeValue_suffix (v : Nat) : codeValue (bucket v) (v - (2 ^ bucket v - 1)) = v := by
  have hle := (bucket_bounds v).1
  have hpos := Nat.two_pow_pos (bucket v)
  change v - (2 ^ bucket v - 1) + 2 ^ bucket v - 1 = v
  omega

@[simp] theorem codeBits_length (v : Nat) : (codeBits v).length = 2 * bucket v + 1 := by
  simp [codeBits]
  omega

/-- The first one bit ends the run of zero bits before it. -/
theorem replicate_false_append_true_inj {xs ys : List Bool} : ∀ {a b : Nat},
    List.replicate a false ++ true :: xs = List.replicate b false ++ true :: ys →
      a = b ∧ xs = ys
  | 0, 0, h => by simpa using h
  | 0, b + 1, h => by simp [List.replicate_succ] at h
  | a + 1, 0, h => by simp [List.replicate_succ] at h
  | a + 1, b + 1, h => by
    simp only [List.replicate_succ, List.cons_append, List.cons.injEq, true_and] at h
    obtain ⟨rfl, hxs⟩ := replicate_false_append_true_inj h
    exact ⟨rfl, hxs⟩

/-- Settles O41: the zero bits tell the bucket, and the bucket how long the suffix is. -/
theorem codeIsPrefixFree : Obligations.CodeIsPrefixFree := by
  refine ⟨fun v v' rest rest' h => ?_, fun v k hlow hhigh => ?_⟩
  · rw [codeBits_append, codeBits_append] at h
    obtain ⟨hbucket, htail⟩ := replicate_false_append_true_inj h
    obtain ⟨hsuffix, hrest⟩ := List.append_inj htail (by simp [hbucket])
    have hvalue := congrArg (bitsValue 0) hsuffix
    rw [bitsValue_fieldBits_of_lt (suffix_lt v), bitsValue_fieldBits_of_lt (suffix_lt v')] at hvalue
    exact ⟨by rw [← codeValue_suffix v, ← codeValue_suffix v', hvalue, hbucket], hrest⟩
  · rw [codeBits_length, bucket_eq hlow hhigh]

/-- The values of the domain are those whose bucket is at most `K_MAX` (R84). -/
theorem bucket_le_of_le_ueMax {p : Params} {v : Nat} (h : v ≤ ueMax p) : bucket v ≤ p.kMax := by
  refine bucket_le ?_
  have := Nat.two_pow_pos p.kMax
  simp only [ueMax, pow_succ] at h ⊢
  omega

/-- The mapped code of a signed value of the domain is in the domain, and maps back (R86). -/
theorem codeToSigned_signedToCode {p : Params} {x : Int} (h : -((seMax p : Nat) : Int) ≤ x)
    (h' : x ≤ ((seMax p : Nat) : Int)) :
    signedToCode x ≤ ueMax p ∧ codeToSigned (signedToCode x) = x := by
  have hpos := Nat.two_pow_pos p.kMax
  simp only [seMax, ueMax, pow_succ, signedToCode, codeToSigned] at *
  generalize 2 ^ p.kMax = m at *
  constructor <;> split_ifs <;> omega

/-- The signed value of a code of the domain is in the domain, and maps back (R86). -/
theorem signedToCode_codeToSigned {p : Params} {c : Nat} (h : c ≤ ueMax p) :
    -((seMax p : Nat) : Int) ≤ codeToSigned c ∧ codeToSigned c ≤ ((seMax p : Nat) : Int)
      ∧ signedToCode (codeToSigned c) = c := by
  have hpos := Nat.two_pow_pos p.kMax
  simp only [seMax, ueMax, pow_succ, signedToCode, codeToSigned] at *
  generalize 2 ^ p.kMax = m at *
  refine ⟨?_, ?_, ?_⟩ <;> split_ifs <;> omega

/-- Settles O42. -/
theorem signedMappingIsABijection : Obligations.SignedMappingIsABijection :=
  fun _ => ⟨fun _ => codeToSigned_signedToCode, fun _ => signedToCode_codeToSigned⟩

/-! ### What the bit-level writes write -/

/-- A bit-level write with an operand of its domain writes its bits (R132, R133, R135, R137,
R138). -/
theorem exec_of_writesBits {s : State} {i : Instr} {bits : List Bool}
    (h : WritesBits s.params i bits) (hready : s.WrReady) :
    exec i s = .next (s.workWr (.bits bits)) := by
  cases i with
  | writeBit b | writeBool b =>
    cases h
    exact exec_of_wrReady rfl hready
  | writeNBits n value =>
    obtain ⟨hn, rfl⟩ := h
    have hbits : (List.range n.toNat).map (fun k => value.getLsbD (n.toNat - 1 - k))
        = fieldBits n.toNat value.toNat := by
      simp only [fieldBits_eq_map, BitVec.testBit_toNat]
    rw [exec_of_wrReady (i := .writeNBits n value) rfl hready, hbits]
    exact congrArg _ (if_neg (not_lt.2 hn))
  | writeUe value =>
    obtain ⟨hcode, rfl⟩ := h
    exact (exec_of_wrReady rfl hready).trans (congrArg _ (if_neg (not_lt.2 hcode)))
  | writeSe value =>
    obtain ⟨hcode, rfl⟩ := h
    exact (exec_of_wrReady rfl hready).trans (congrArg _ (if_neg (not_lt.2 hcode)))
  | _ => exact h.elim

/-- A ready WR has written `bits` after what it had written, and answered OK (R141). -/
abbrev WroteBits (s t : State) (bits : List Bool) : Prop :=
  t.bitsOut = s.bitsOut ++ bits ∧ t.wr.st = .ready ∧ t.wr.Inv ∧ t.responses = s.plus 0x00 0 0
    ∧ t.sink.AlwaysAccepts ∧ t.wrJob = none ∧ OnlyWr s t

/-- To a sink that accepts, a bit-level write appends its bits (R141). -/
theorem exec_writes_bits {s : State} {i : Instr} {bits : List Bool}
    (h : WritesBits s.params i bits) (hready : s.WrReady) (hinv : s.wr.Inv)
    (ha : s.sink.AlwaysAccepts) : ∃ t, exec i s = .next t ∧ WroteBits s t bits := by
  obtain ⟨hst, hlow, hfault⟩ := hinv.sound hready.1
  obtain ⟨wr, snk, hrun, hbits, hlow', ha', hst', hfault'⟩ :=
    writeBits_of_accepts (bits := bits) hlow ha
  have hsound : wr.Sound := ⟨hst'.trans hst, hlow', hfault'.trans hfault⟩
  refine ⟨_, exec_of_writesBits h hready, ?_⟩
  rw [workWr_of_done (job := .bits bits) hready.2 hrun]
  exact ⟨hbits, hsound.st, hsound.inv, rfl, ha', hready.2, by simp [OnlyWr]⟩

/-- Settles O32. -/
theorem writeNBitsWritesTheLowBits : Obligations.WriteNBitsWritesTheLowBits :=
  fun _ n value hready hinv ha hn =>
    exec_writes_bits (i := .writeNBits n value) ⟨hn, rfl⟩ hready hinv ha

/-- Settles O34: the bounds on the value are those of bucket `k`. -/
theorem writeUeWritesTheCode : Obligations.WriteUeWritesTheCode := by
  intro s value k hready hinv ha hdomain hlow hhigh
  obtain ⟨t, ht, hwrote⟩ := exec_writes_bits (i := .writeUe value) ⟨hdomain, rfl⟩ hready hinv ha
  have hcode := codeBits_append value.toNat []
  rw [bucket_eq hlow hhigh, List.append_nil, List.append_nil, fieldBits_eq_map] at hcode
  exact ⟨t, ht, hcode ▸ hwrote⟩

/-- Settles O35: the code given is the mapped one. -/
theorem writeSeWritesTheMappedCode : Obligations.WriteSeWritesTheMappedCode := by
  intro s value c hready hinv ha hc hdomain
  rw [← cast_signedToCode] at hc
  obtain rfl := Int.ofNat_inj.1 hc
  exact exec_writes_bits (i := .writeSe value) ⟨hdomain, rfl⟩ hready hinv ha

/-! ### flush -/

/-- The bits of `WR.acc` are the pending ones and zeros (R33). -/
theorem byteBits_of_lowBitsZero {wr : Wr} (h : wr.LowBitsZero) :
    byteBits wr.acc
      = (byteBits wr.acc).take wr.pos.val ++ List.replicate (8 - wr.pos.val) false := by
  rw [lowBitsZero_iff] at h
  conv_lhs => rw [← List.take_append_drop wr.pos.val (byteBits wr.acc)]
  congr 1
  refine List.eq_replicate_iff.2 ⟨by simp [byteBits], fun b hb => ?_⟩
  obtain ⟨k, hk, rfl⟩ := List.mem_iff_getElem.1 hb
  simp only [byteBits, fieldBits_eq_map, List.getElem_drop, List.getElem_map, List.getElem_range,
    BitVec.testBit_toNat]
  exact h _ (by simp [byteBits] at hk; omega)

/-- Settles O29: nothing is pending, or the pushed byte is the pending bits and zeros. -/
theorem flushPadsWithZeroBits : Obligations.FlushPadsWithZeroBits := by
  intro s hready hinv ha
  have hlow := (hinv.sound hready.1).low
  have hexec : exec .flush s = .next (s.workWr .flush) := exec_of_wrReady rfl hready
  by_cases hpos : s.wr.pos = 0
  · refine ⟨_, hexec, ?_⟩
    have hacc : s.wr.acc = 0 := by
      rw [Wr.LowBitsZero, hpos] at hlow
      exact BitVec.eq_of_toNat_eq ((Nat.mod_eq_of_lt s.wr.acc.isLt).symm.trans hlow)
    rw [workWr_of_done (job := .flush) hready.2 (flushBits_of_aligned hpos)]
    refine ⟨by simp [State.bitsOut, hpos], ?_, rfl, ha, hready.2, by simp [OnlyWr]⟩
    rw [← hacc, ← hpos]
  · refine ⟨_, hexec, ?_⟩
    rw [workWr_of_push_accepted (job := .flush) hready.2 (flushBits_of_pending hpos)
      (AlwaysAccepts.next ha)]
    refine ⟨?_, rfl, rfl, AlwaysAccepts.appended ha _, hready.2, by simp [OnlyWr]⟩
    have hlt : 8 - s.wr.pos.val < 8 := by
      have : s.wr.pos.val ≠ 0 := fun h => hpos (Fin.ext h)
      omega
    simp only [Sink.appended, State.bitsOut, bytesBits, List.flatMap_append, List.flatMap_cons,
      List.flatMap_nil, List.append_nil, Nat.mod_eq_of_lt hlt, List.append_assoc]
    rw [← byteBits_of_lowBitsZero hlow]

/-! ### A sink that accepts takes any run of bits -/

/-- Bits written to a sink that accepts leave `wr'` and `snk'`: whatever is written next is written
from there, and eight bits make a byte of the sink (R130, R143). -/
structure Accepted (bits : List Bool) (wr : Wr) (snk : Sink) (wr' : Wr) (snk' : Sink) : Prop where
  append : ∀ rest, writeBits (bits ++ rest) wr snk = writeBits rest wr' snk'
  accepts : snk'.AlwaysAccepts
  st : wr'.st = wr.st
  length : 8 * snk'.bytes.length + wr'.pos.val = 8 * snk.bytes.length + wr.pos.val + bits.length

theorem Accepted.done {bits : List Bool} {wr wr' : Wr} {snk snk' : Sink}
    (h : Accepted bits wr snk wr' snk') : writeBits bits wr snk = .done wr' snk' := by
  have := h.append []
  rwa [List.append_nil] at this

/-- Counting a bit below position 7 does not wrap (R24; log entry 7). -/
theorem pos_succ_val {pos : Fin 8} (h : pos ≠ 7) : (pos + 1).val = pos.val + 1 := by
  revert h
  decide +revert

theorem exists_accepted : ∀ (bits : List Bool) (wr : Wr) {snk : Sink}, snk.AlwaysAccepts →
    ∃ wr' snk', Accepted bits wr snk wr' snk'
  | [], wr, snk, ha => ⟨wr, snk, fun _ => rfl, ha, rfl, rfl⟩
  | b :: bits, wr, snk, ha => by
    by_cases hpos : wr.pos = 7
    · obtain ⟨wr', snk', h⟩ :=
        exists_accepted bits wr.emptied (AlwaysAccepts.appended ha (wr.placeBit b))
      refine ⟨wr', snk', fun rest => ?_, h.accepts, h.st, ?_⟩
      · rw [← h.append rest]
        exact writeBits_cons_done (writeBit_accepted hpos (AlwaysAccepts.next ha))
      · have := h.length
        simp only [Sink.appended, Wr.emptied, List.length_append, List.length_cons, List.length_nil,
          Fin.val_zero] at this ⊢
        have h7 : wr.pos.val = 7 := congrArg Fin.val hpos
        omega
    · obtain ⟨wr', snk', h⟩ :=
        exists_accepted bits { wr with acc := wr.placeBit b, pos := wr.pos + 1 } ha
      refine ⟨wr', snk', fun rest => ?_, h.accepts, h.st, ?_⟩
      · rw [← h.append rest]
        exact writeBits_cons_done (writeBit_below hpos)
      · have := h.length
        simp only [pos_succ_val hpos, List.length_cons] at this ⊢
        omega

/-- A field is its high part followed by its low part (R81). -/
theorem fieldBits_add (m n v : Nat) :
    fieldBits (m + n) v = fieldBits m (v >>> n) ++ fieldBits n v := by
  induction m with
  | zero => simp [fieldBits]
  | succ m ih =>
    rw [Nat.add_right_comm, fieldBits, ih, fieldBits, List.cons_append, Nat.testBit_shiftRight,
      Nat.add_comm n m]

/-- What `write_n_bits` leaves when the sink takes its bits (R135). -/
theorem exec_writeNBits_of_accepted {s t : State} {n : BitVec 8} {value : Word} {wr : Wr}
    {snk : Sink} (hready : s.WrReady) (hn : n.toNat ≤ 32)
    (h : Accepted (fieldBits n.toNat value.toNat) s.wr s.sink wr snk)
    (ht : exec (.writeNBits n value) s = .next t) :
    t = { s with wr := wr, sink := snk, responses := s.plus 0x00 0 0 } := by
  have hwork : exec (.writeNBits n value) s
      = .next (s.workWr (.bits (fieldBits n.toNat value.toNat))) :=
    (exec_of_wrReady rfl hready).trans (congrArg _ (if_neg (not_lt.2 hn)))
  cases hwork.symm.trans ht
  exact workWr_of_done hready.2 h.done

/-- Settles O37: the bits of the field are those of its parts, and a sink that accepts takes both
runs alike. -/
theorem fieldsConcatenate : Obligations.FieldsConcatenate := by
  intro s t u v n1 n2 value hready ha hn ht hu hv
  obtain ⟨wr1, snk1, h1⟩ := exists_accepted (fieldBits n1.toNat (value.toNat >>> n2.toNat)) s.wr ha
  obtain ⟨wr2, snk2, h2⟩ := exists_accepted (fieldBits n2.toNat value.toNat) wr1 h1.accepts
  have hadd : (n1 + n2).toNat = n1.toNat + n2.toNat := by
    rw [BitVec.toNat_add]
    omega
  have hlow := exec_writeNBits_of_accepted (n := n1) hready (by omega) (by simpa using h1) hu
  have hready' : u.WrReady := by
    rw [hlow]
    exact ⟨h1.st.trans hready.1, hready.2⟩
  have hhigh := exec_writeNBits_of_accepted (n := n2) hready' (by omega) (by rw [hlow]; exact h2) hv
  have hwhole : Accepted (fieldBits (n1 + n2).toNat value.toNat) s.wr s.sink wr2 snk2 := by
    rw [hadd, fieldBits_add]
    refine ⟨fun rest => ?_, h2.accepts, h2.st.trans h1.st, ?_⟩
    · rw [List.append_assoc, h1.append, h2.append]
    · rw [h2.length, h1.length, List.length_append, Nat.add_assoc]
  have hboth := exec_writeNBits_of_accepted hready (by omega) hwhole ht
  rw [hhigh, hboth]
  exact ⟨rfl, rfl⟩

/-- Writing a code to a sink that accepts pushes at most 8 bytes (R237). -/
theorem writeCode_pushes_le {s : State} (hlegal : s.params.Legal) (ha : s.sink.AlwaysAccepts)
    (code : Nat) (info : Word) :
    (s.writeCode code info).sink.bytes.length ≤ s.sink.bytes.length + 8 := by
  unfold State.writeCode
  split
  · simp
  · next hcode =>
    have hbucket := bucket_le_of_le_ueMax (not_lt.1 hcode)
    have hmax := hlegal.2
    obtain ⟨wr, snk, h⟩ := exists_accepted (codeBits code) s.wr ha
    have hlength := h.length
    rw [codeBits_length] at hlength
    rw [State.workWr, endWr_sink, runWr, h.done]
    simp only [WrRun.snk]
    omega

/-- Settles O40. -/
theorem codeWriteMakesAtMostEightPushes : Obligations.CodeWriteMakesAtMostEightPushes := by
  intro s t value hlegal ha h
  have hpushes := writeCode_pushes_le hlegal ha
  obtain h | h := h <;> obtain ⟨-, ⟨-, rfl⟩ | ⟨-, rfl⟩⟩ := wrPreamble_next.1 h
  · exact Nat.le_add_right ..
  · exact hpushes ..
  · exact Nat.le_add_right ..
  · exact hpushes ..

end Sys2Proof.Machine

namespace Sys2Proof.Machine

/-! ### What is left of a code after a run of bits -/

/-- What is left to do of a code when a run of bits has been read (R113). -/
inductive RdJob.Reads (p : Params) : RdJob → List Bool → RdJob → Prop
  | nil (job : RdJob) : Reads p job [] job
  | cons {job job' job'' : RdJob} {b : Bool} {bits : List Bool} (h : job.Next p b job')
      (h' : Reads p job' bits job'') : Reads p job (b :: bits) job''

theorem RdJob.Reads.append {p : Params} {job job' job'' : RdJob} {bits bits' : List Bool}
    (h : job.Reads p bits job') (h' : job'.Reads p bits' job'') :
    job.Reads p (bits ++ bits') job'' := by
  induction h with
  | nil => exact h'
  | cons hnext _ ih => exact .cons hnext (ih h')

theorem reads_zeros {p : Params} (form : CodeForm) : ∀ {n k : Nat}, k + n ≤ p.kMax →
    RdJob.Reads p (.zeros form k) (List.replicate n false) (.zeros form (k + n))
  | 0, k, _ => .nil _
  | n + 1, k, h => by
    rw [List.replicate_succ, Nat.add_comm n, ← Nat.add_assoc]
    exact .cons (.zero form (by omega)) (reads_zeros form (by omega))

theorem reads_suffix {p : Params} (form : CodeForm) (k : Nat) :
    ∀ (bits : List Bool) (got : Nat),
      RdJob.Reads p (.suffix form k bits.length got) bits (.suffix form k 0 (bitsValue got bits))
  | [], _ => .nil _
  | b :: bits, got => .cons (.suffix form k bits.length got b) (reads_suffix form k bits _)

/-- The code of a value of the domain is read whole (R82, R113). -/
theorem reads_codeBits {p : Params} {v : Nat} (form : CodeForm) (h : bucket v ≤ p.kMax) :
    RdJob.Reads p (.zeros form 0) (codeBits v)
      (.suffix form (bucket v) 0 (v - (2 ^ bucket v - 1))) := by
  have hsuffix := reads_suffix (p := p) form (bucket v)
    (fieldBits (bucket v) (v - (2 ^ bucket v - 1))) 0
  rw [fieldBits_length, bitsValue_fieldBits_of_lt (suffix_lt v)] at hsuffix
  have hzeros := reads_zeros (p := p) form (k := 0) (n := bucket v) (by omega)
  rw [Nat.zero_add] at hzeros
  rw [codeBits, fieldBits_zero_value]
  exact hzeros.append (.cons (.one form _) hsuffix)

/-- Whoever reads a run of bits but not to its end awaits the next one. -/
theorem RdJob.Reads.take {p : Params} {job job' : RdJob} {bits : List Bool}
    (h : job.Reads p bits job') {n : Nat} (hn : n < bits.length) :
    ∃ job'', job.Reads p (bits.take n) job'' ∧ job''.AwaitsBit := by
  induction h generalizing n with
  | nil => cases hn
  | @cons job job' _ b bits hnext _ ih =>
    cases n with
    | zero => exact ⟨job, .nil job, hnext.awaitsBit⟩
    | succ n =>
      obtain ⟨job'', hreads, hawaits⟩ := ih (Nat.lt_of_succ_lt_succ hn)
      exact ⟨job'', .cons hnext hreads, hawaits⟩

/-! ### Where the bits come from -/

/-- `Q rd src bits` says that `ReadBit` delivers `bits`, one after the other. -/
def Supplies (Q : Rd → Source → List Bool → Prop) : Prop :=
  ∀ {job : RdJob} {rd : Rd} {src : Source} {b : Bool} {rest : List Bool}, Q rd src (b :: rest) →
    ∃ rd' src', readBit job rd src = .done b rd' src' ∧ Q rd' src' rest

/-- Bits that are supplied take a job to what it has left after them. -/
theorem runRd_reads {Q : Rd → Source → List Bool → Prop} (hQ : Supplies Q) {p : Params}
    {job job' : RdJob} {bits rest : List Bool} (h : job.Reads p bits job') {rd : Rd}
    {src : Source} (hq : Q rd src (bits ++ rest)) :
    ∃ rd' src', runRd p job rd src = runRd p job' rd' src' ∧ Q rd' src' rest
      ∧ BitsTaken bits.length rd src rd' src' := by
  induction h generalizing rd src with
  | nil => exact ⟨rd, src, rfl, hq, .refl rd src⟩
  | cons hnext _ ih =>
    obtain ⟨rd1, src1, hbit, hq1⟩ := hQ hq
    obtain ⟨rd2, src2, hrun, hq2, htaken⟩ := ih hq1
    refine ⟨rd2, src2, (runRd_next hnext hbit).trans hrun, hq2, ?_⟩
    rw [List.length_cons, Nat.add_comm]
    exact (readBit_done hbit).1.trans htaken

/-- The bits ahead, with a source that always delivers (R35). -/
def BitsAhead (rd : Rd) (src : Source) (bits : List Bool) : Prop :=
  src.AlwaysDelivers ∧ bitsFrom rd src = bits

theorem bitsAhead_supplies : Supplies BitsAhead := by
  intro job rd src b rest ⟨hs, hb⟩
  obtain ⟨rd', src', hr, hb', hs', -⟩ := readBit_of_bits (job := job) hs hb
  exact ⟨rd', src', hr, hs', hb'⟩

/-- The bits up to the pull that finds the source as `fin`: the source delivers every byte before
it. -/
def BitsBefore (fin : Source) (rd : Rd) (src : Source) (bits : List Bool) : Prop :=
  ∃ j, src.answers = List.replicate j .deliver ++ fin.answers ∧ src.bytes = fin.bytes
    ∧ src.idx + j = fin.idx ∧ fin.idx ≤ fin.bytes.length
    ∧ (byteBits rd.cur).drop rd.off.val ++ bytesBits ((src.bytes.drop src.idx).take j) = bits

/-- Below offset 8 the first unread bit is bit `7 - RD.off` of `RD.cur` (R110). -/
theorem drop_byteBits {off : Fin 9} (h : off ≠ 8) (cur : Byte) :
    (byteBits cur).drop off.val
      = cur.getLsbD (7 - off.val) :: (byteBits cur).drop (off + 1).val := by
  rw [byteBits_eq]
  revert h
  fin_cases off <;> simp

theorem bitsBefore_supplies (fin : Source) : Supplies (BitsBefore fin) := by
  intro job rd src b rest ⟨j, hanswers, hbytes, hidx, hle, hbits⟩
  by_cases h8 : rd.off = 8
  · have hnil : (byteBits rd.cur).drop rd.off.val = [] := by simp [h8, byteBits]
    rw [hnil, List.nil_append] at hbits
    obtain _ | j := j
    · simp [bytesBits] at hbits
    have hlt : src.idx < src.bytes.length := by rw [hbytes]; omega
    rw [List.drop_eq_getElem_cons hlt, List.take_succ_cons, bytesBits, List.flatMap_cons,
      byteBits_eq] at hbits
    obtain ⟨rfl, htail⟩ := List.cons.inj hbits
    have hpull : src.pull = .byte src.bytes[src.idx] src.advanced :=
      pull_of_some (.inr (by rw [hanswers]; rfl)) (List.getElem?_eq_getElem hlt)
    refine ⟨{ rd with cur := src.bytes[src.idx], off := 1 }, src.advanced,
      by rw [readBit, if_pos h8, hpull]; rfl, j, ?_, hbytes, ?_, hle, ?_⟩
    · exact congrArg List.tail hanswers
    · rw [advanced_idx]
      omega
    · rw [byteBits_eq]
      exact htail
  · rw [drop_byteBits h8] at hbits
    obtain ⟨rfl, htail⟩ := List.cons.inj hbits
    exact ⟨_, src, if_neg h8, j, hanswers, hbytes, hidx, hle, htail⟩

/-- With no bit before it the next pull finds the source as `fin`. -/
theorem bitsBefore_nil {fin : Source} {rd : Rd} {src : Source} (h : BitsBefore fin rd src []) :
    rd.off = 8 ∧ src = fin := by
  obtain ⟨j, hanswers, hbytes, hidx, hle, hbits⟩ := h
  obtain ⟨hcur, hnext⟩ := List.append_eq_nil_iff.1 hbits
  have h8 : rd.off = 8 := by
    by_contra h8
    simp [drop_byteBits h8] at hcur
  have hj : j = 0 := by
    obtain _ | j := j
    · rfl
    have hlt : src.idx < src.bytes.length := by rw [hbytes]; omega
    rw [List.drop_eq_getElem_cons hlt, List.take_succ_cons, bytesBits, List.flatMap_cons,
      byteBits_eq] at hnext
    cases hnext
  subst hj
  obtain ⟨bytes, idx, answers⟩ := src
  exact ⟨h8, by simp_all⟩

/-! ### RD: codes -/

/-- A read whose bits ahead are the code of a value of the domain answers the value and leaves the
bits after the code ahead (R82, R113). -/
theorem exec_reads_code {s : State} {i : Instr} {form : CodeForm} {v : Nat} {rest : List Bool}
    (hi : (i, .zeros form 0) ∈ readJobs) (hready : s.RdReady) (hs : s.source.AlwaysDelivers)
    (hv : bucket v ≤ s.params.kMax) (hb : s.bitsAhead = codeBits v ++ rest) :
    ∃ t, exec i s = .next t ∧ t.responses = s.plus 0x00 (codeWord form v) 0
      ∧ t.bitsAhead = rest ∧ t.rd.st = .ready ∧ t.rd.fault = s.rd.fault ∧ t.rdJob = none
      ∧ t.source.bytes = s.source.bytes ∧ t.source.AlwaysDelivers ∧ OnlyRd s t := by
  obtain ⟨rd, src, hrun, ⟨hs', hb'⟩, htaken⟩ :=
    runRd_reads bitsAhead_supplies (reads_codeBits form hv) ⟨hs, hb⟩
  rw [runRd_suffix_zero, codeValue_suffix] at hrun
  exact ⟨_, exec_of_runRd_done hi hready hrun, rfl, hb', htaken.st.trans hready.1, htaken.fault,
    hready.2, htaken.bytes, hs', by simp [OnlyRd]⟩

/-- The code with `k` zero bits and a `k`-bit suffix is the code of its value (R82). -/
theorem codeBits_codeValue {k suffix : Nat} (h : suffix < 2 ^ k) :
    bucket (codeValue k suffix) = k ∧ codeBits (codeValue k suffix)
      = List.replicate k false ++ true
        :: (List.range k).map (fun j => suffix.testBit (k - 1 - j)) := by
  have hpos := Nat.two_pow_pos k
  have hbucket : bucket (codeValue k suffix) = k :=
    bucket_eq (by unfold codeValue; omega) (by unfold codeValue; rw [pow_succ]; omega)
  have hsuffix : codeValue k suffix - (2 ^ k - 1) = suffix := by unfold codeValue; omega
  refine ⟨hbucket, ?_⟩
  rw [codeBits, hbucket, hsuffix, fieldBits_zero_value, fieldBits_eq_map]

/-- Settles O14: both commands read the code of the suffix's value. -/
theorem readUeReturnsTheCodedValue : Obligations.ReadUeReturnsTheCodedValue := by
  intro s i k suffix rest hi hlegal hready hs hk hsuffix hb
  obtain ⟨hbucket, hcode⟩ := codeBits_codeValue hsuffix
  have hjob : (i, RdJob.zeros .unsigned 0) ∈ readJobs := by
    simp only [List.mem_cons, List.not_mem_nil, or_false] at hi
    obtain rfl | rfl := hi <;> decide
  exact exec_reads_code (v := codeValue k suffix) hjob hready hs (hbucket.trans_le hk)
    (by rw [hb, hcode]; simp)

/-- Settles O15: the code is that of the mapped value. -/
theorem readSeReturnsTheSignedValue : Obligations.ReadSeReturnsTheSignedValue := by
  intro s x c rest hlegal hready hs hlow hhigh hc hb
  rw [← cast_signedToCode] at hc
  obtain rfl := Int.ofNat_inj.1 hc
  obtain ⟨hdomain, hback⟩ := codeToSigned_signedToCode hlow hhigh
  have h := exec_reads_code (i := .readSe) (form := .signed) (by decide) hready hs
    (bucket_le_of_le_ueMax hdomain) hb
  rwa [codeWord, hback] at h

/-- The code reads, each with the form in which it delivers its value (R113 to R115). -/
theorem exists_codeForm {i : Instr}
    (h : i ∈ [Instr.readExpGolombCode, Instr.readUe, Instr.readSe]) :
    ∃ form, (i, RdJob.zeros form 0) ∈ readJobs := by
  simp only [List.mem_cons, List.not_mem_nil, or_false] at h
  obtain rfl | rfl | rfl := h
  · exact ⟨.unsigned, by decide⟩
  · exact ⟨.unsigned, by decide⟩
  · exact ⟨.signed, by decide⟩

/-- Settles O16: `K_MAX` zero bits are read, the next one raises the fault, and the position is
the number of bits read. -/
theorem longPrefixFaultsAtTheEarliestBit : Obligations.LongPrefixFaultsAtTheEarliestBit := by
  intro s i rest hi hready hs hb
  obtain ⟨form, hjob⟩ := exists_codeForm hi
  rw [List.replicate_succ', List.append_assoc] at hb
  have hreads := reads_zeros (p := s.params) form (k := 0) (Nat.zero_add s.params.kMax).le
  obtain ⟨rd1, src1, hrun, hq1, htaken⟩ := runRd_reads bitsAhead_supplies hreads ⟨hs, hb⟩
  obtain ⟨rd2, src2, hbit, -⟩ := bitsAhead_supplies (job := .zeros form (0 + s.params.kMax)) hq1
  obtain ⟨htaken', hoff⟩ := readBit_done hbit
  rw [runRd_tooLong (Nat.zero_add _).ge hbit, Nat.zero_add] at hrun
  obtain ⟨t, ht, hfault, hsrc⟩ := exec_of_runRd_raised hjob hready hrun
  have hall := htaken.trans htaken'
  refine ⟨t, ht, hfault, hsrc ▸ hall.bytes, hsrc ▸ ?_⟩
  have hpos := hall.pos
  rw [List.length_replicate] at hpos
  have hoff' : rd2.off.val ≠ 0 := fun h => hoff (Fin.ext h)
  omega

/-- A source with no bit ahead has had every byte pulled. -/
theorem length_le_idx {rd : Rd} {src : Source} (h : bitsFrom rd src = []) :
    src.bytes.length ≤ src.idx := by
  by_contra hlt
  rw [bitsFrom, List.drop_eq_getElem_cons (not_le.1 hlt), bytesBits, List.flatMap_cons,
    byteBits_eq src.bytes[src.idx]] at h
  simp at h

/-- Settles O17: the bits of the code that are there are read, and the next refill underruns. -/
theorem truncatedCodeFaultsWithUnderrun : Obligations.TruncatedCodeFaultsWithUnderrun := by
  intro s i v n hi hready hs hidx hv hn hb
  obtain ⟨form, hjob⟩ := exists_codeForm hi
  obtain ⟨job, hreads, hawaits⟩ := (reads_codeBits form (bucket_le_of_le_ueMax hv)).take hn
  obtain ⟨rd, src, hrun, ⟨hs', hnil⟩, htaken⟩ :=
    runRd_reads bitsAhead_supplies hreads (rest := []) ⟨hs, by rw [List.append_nil]; exact hb⟩
  rw [runRd_of_raised hawaits (readBit_of_nil hs' hnil)] at hrun
  obtain ⟨t, ht, hfault, hsrc⟩ := exec_of_runRd_raised hjob hready hrun
  refine ⟨t, ht, hfault, hsrc ▸ htaken.bytes, ?_⟩
  rw [hsrc, answered_idx]
  exact le_antisymm (htaken.idx_le hidx) (htaken.bytes ▸ length_le_idx hnil)

/-- A code read whose first `j` pulls deliver part of a code has read that part when the next pull
finds the source as it then is (R113). -/
theorem runRd_partial_code {s : State} {i : Instr} {v n j : Nat} {answers : List PullAnswer}
    (hi : i ∈ [Instr.readExpGolombCode, Instr.readUe, Instr.readSe])
    (hanswers : s.source.answers = List.replicate j .deliver ++ answers)
    (hidx : s.source.idx + j ≤ s.source.bytes.length) (hv : v ≤ ueMax s.params)
    (hn : n < (codeBits v).length)
    (hb : (byteBits s.rd.cur).drop s.rd.off.val
        ++ bytesBits ((s.source.bytes.drop s.source.idx).take j) = (codeBits v).take n) :
    ∃ form job rd, (i, RdJob.zeros form 0) ∈ readJobs ∧ job.AwaitsBit ∧ rd.off = 8
      ∧ runRd s.params (.zeros form 0) s.rd s.source
        = runRd s.params job rd
            { bytes := s.source.bytes, idx := s.source.idx + j, answers := answers } := by
  obtain ⟨form, hjob⟩ := exists_codeForm hi
  obtain ⟨job, hreads, hawaits⟩ := (reads_codeBits form (bucket_le_of_le_ueMax hv)).take hn
  obtain ⟨rd, src, hrun, hq, -⟩ := runRd_reads (rest := [])
    (bitsBefore_supplies { bytes := s.source.bytes, idx := s.source.idx + j, answers := answers })
    hreads ⟨j, hanswers, rfl, rfl, hidx, by rw [List.append_nil]; exact hb⟩
  obtain ⟨h8, rfl⟩ := bitsBefore_nil hq
  exact ⟨form, job, rd, hjob, hawaits, h8, hrun⟩

/-! ### Round trips -/

/-- What a fresh WR writes of a code and flushes, a fresh RD reads back (41_bit_writer.md
section 3). -/
theorem written_code_is_read_back {s r : State} {i j : Instr} {form : CodeForm} {v : Nat}
    (hi : WritesBits s.params i (codeBits v)) (hj : (j, .zeros form 0) ∈ readJobs)
    (hwr : s.wr = Wr.reset) (hwrJob : s.wrJob = none)
    (hsink : s.sink = { bytes := [], answers := [] }) (hv : v ≤ ueMax s.params)
    (hrd : r.rd = Rd.reset) (hrdJob : r.rdJob = none) (hparams : r.params = s.params) :
    ∃ t u w, exec i s = .next t ∧ exec .flush t = .next u
      ∧ exec j { r with source := { bytes := u.sink.bytes, idx := 0, answers := [] } } = .next w
      ∧ w.responses = r.plus 0x00 (codeWord form v) 0 := by
  have hready : s.WrReady := ⟨congrArg Wr.st hwr, hwrJob⟩
  have hinv : s.wr.Inv := hwr ▸ Wr.reset_sound.inv
  have ha : s.sink.AlwaysAccepts := hsink ▸ fun _ h => (by cases h)
  obtain ⟨t, ht, hbits, hst, hinv', -, ha', hjob', -⟩ := exec_writes_bits hi hready hinv ha
  obtain ⟨u, hu, hflushed, -⟩ := flushPadsWithZeroBits t ⟨hst, hjob'⟩ hinv' ha'
  have hempty : s.bitsOut = [] := by simp [State.bitsOut, hwr, hsink, bytesBits, Wr.reset]
  rw [hbits, hempty, List.nil_append] at hflushed
  have hrdReady : State.RdReady
      { r with source := { bytes := u.sink.bytes, idx := 0, answers := [] } } :=
    ⟨congrArg Rd.st hrd, hrdJob⟩
  obtain ⟨w, hw, hresp, -⟩ := exec_reads_code hj hrdReady (fun _ h => by cases h)
    (hparams ▸ bucket_le_of_le_ueMax hv)
    (by
      rw [← hflushed, State.bitsAhead, hrd]
      rfl)
  exact ⟨t, u, w, ht, hu, hw, hresp⟩

/-- Settles O43. -/
theorem writtenUeIsReadBack : Obligations.WrittenUeIsReadBack := by
  intro s r value hwr hwrJob hsink _ hv hrd hrdJob hparams
  have h := written_code_is_read_back (i := .writeUe value) (j := .readUe) (form := .unsigned)
    ⟨hv, rfl⟩ (by decide) hwr hwrJob hsink hv hrd hrdJob hparams
  rwa [codeWord, BitVec.ofNat_toNat, BitVec.setWidth_eq] at h

/-- Settles O44: the signed mapping undoes itself. -/
theorem writtenSeIsReadBack : Obligations.WrittenSeIsReadBack := by
  intro s r value hwr hwrJob hsink _ hlow hhigh hrd hrdJob hparams
  obtain ⟨hdomain, hback⟩ := codeToSigned_signedToCode hlow hhigh
  have h := written_code_is_read_back (i := .writeSe value) (j := .readSe) (form := .signed)
    ⟨hdomain, rfl⟩ (by decide) hwr hwrJob hsink hdomain hrd hrdJob hparams
  rwa [codeWord, hback, BitVec.ofInt_toInt] at h

end Sys2Proof.Machine

namespace Sys2Proof.Machine

/-! ### A withheld answer of the source -/

/-- The first answer that is not `accept` is `withhold`, between these others. -/
def WithholdsAfter {α : Type} (accept withhold : α) (before after answers : List α) : Prop :=
  (∀ a ∈ before, a = accept) ∧ answers = before ++ withhold :: after

/-- The answers begin with the withheld one only when nothing stands before it. -/
theorem WithholdsAfter.eq_nil {α : Type} {accept withhold : α} {before after answers : List α}
    (h : WithholdsAfter accept withhold before after answers) (hne : withhold ≠ accept)
    (hw : answers.head? = some withhold) : before = [] := by
  obtain ⟨hall, rfl⟩ := h
  cases before with
  | nil => rfl
  | cons a before =>
    rw [List.cons_append, List.head?_cons, hall a List.mem_cons_self] at hw
    exact absurd (Option.some.inj hw).symm hne

/-- An answer that is not the withheld one is one of those before it. -/
theorem WithholdsAfter.eq_cons {α : Type} {accept withhold : α} {before after answers : List α}
    (h : WithholdsAfter accept withhold before after answers)
    (hw : answers.head? ≠ some withhold) :
    ∃ before', before = accept :: before'
      ∧ WithholdsAfter accept withhold before' after answers.tail := by
  obtain ⟨hall, rfl⟩ := h
  cases before with
  | nil => exact absurd rfl hw
  | cons a before =>
    obtain rfl := hall a List.mem_cons_self
    exact ⟨before, rfl, fun x hx => hall x (List.mem_cons_of_mem _ hx), rfl⟩

/-- A bit that is delivered is delivered alike when a later answer is not withheld. -/
theorem readBit_done_without {job : RdJob} {rd rd' : Rd} {src src' : Source} {b : Bool}
    {before after : List PullAnswer}
    (h : WithholdsAfter .deliver .withhold before after src.answers)
    (hr : readBit job rd src = .done b rd' src') :
    ∃ before', WithholdsAfter .deliver .withhold before' after src'.answers
      ∧ readBit job rd { src with answers := before ++ after }
        = .done b rd' { src' with answers := before' ++ after } := by
  obtain ⟨h8, hr'⟩ | ⟨h8, ⟨x, hd, hx, hr'⟩ | ⟨-, -, hr'⟩ | ⟨-, hr'⟩ | ⟨-, hr'⟩⟩ :=
    readBit_cases job rd src <;> cases hr'.symm.trans hr
  · exact ⟨before, h, if_neg h8⟩
  · obtain ⟨before', rfl, h'⟩ := h.eq_cons (by obtain hd | hd := hd <;> simp [hd])
    refine ⟨before', h', ?_⟩
    have hpull : Source.pull { src with answers := .deliver :: before' ++ after }
        = .byte x (Source.advanced { src with answers := .deliver :: before' ++ after }) :=
      pull_of_some (.inr rfl) hx
    rw [readBit, if_pos h8, hpull]
    rfl

/-- RD work that waited goes on, from where it waits, to where it would have come without the
withheld answer (R74). -/
theorem RdRuns.resumes {p : Params} {job : RdJob} {rd : Rd} {src : Source} {r : RdRun Word}
    (h : RdRuns p job rd src r) {before after : List PullAnswer}
    (hw : WithholdsAfter .deliver .withhold before after src.answers) {job' : RdJob} {rd' : Rd}
    {src' : Source} (hr : r = .waits job' rd' src') :
    runRd p job' rd' src' = runRd p job rd { src with answers := before ++ after } := by
  induction h generalizing before with
  | bit | byte | code | tooLong | pullFails => cases hr
  | bitWithheld _ _ hhead =>
    cases hr
    obtain rfl := hw.eq_nil (by decide) hhead
    rw [Source.answered, hw.2]
    rfl
  | byteWithheld hhead =>
    cases hr
    obtain rfl := hw.eq_nil (by decide) hhead
    rw [Source.answered, hw.2]
    rfl
  | next hnext hbit _ ih =>
    obtain ⟨before', hw', hbit'⟩ := readBit_done_without hw hbit
    rw [ih hw' hr, runRd_next hnext hbit']

/-- The end of RD work writes RD's registers, its waiting command and the source anew. -/
theorem endRd_overwrites (s : State) (run : RdRun Word) (rd : Rd) (src : Source)
    (job : Option RdJob) :
    State.endRd run { s with rd := rd, source := src, rdJob := job } = s.endRd run := by
  cases run <;> rfl

/-- Settles O24: the work goes on from where it waits as it would have gone. -/
theorem answeredReadEndsAsIfNeverStalled : Obligations.AnsweredReadEndsAsIfNeverStalled := by
  intro s t i before after rest hi hready hbefore hanswers h hwaits
  obtain ⟨job, hjob⟩ : ∃ job, (i, job) ∈ readJobs := by
    refine exists_mem_readJobs ?_ ?_ <;> cases i <;> simp_all [unitOf]
  cases (exec_of_rdReady hjob hready).symm.trans h
  refine ⟨_, exec_of_rdReady hjob hready, ?_⟩
  cases hrun : runRd s.params job s.rd s.source with
  | done | raised => exact absurd (by rw [hrun]; rfl) hwaits
  | waits job' rd src =>
    have hruns := runRd_runs s.params job s.rd s.source
    rw [hrun] at hruns
    rw [step_sourceAnswers, endRd_waits]
    simp only [State.resumeRd, State.workRd]
    rw [hruns.resumes ⟨hbefore, hanswers⟩ rfl]
    exact congrArg _ (endRd_overwrites { s with source := _, inputs := rest } _ rd src _)

/-! ### A withheld answer of the sink -/

theorem pushAndEmpty_of_withhold {job : WrJob} {b : Byte} {wr : Wr} {snk : Sink}
    (h : snk.answers.head? = some .withhold) :
    pushAndEmpty job b wr snk = .waits job wr snk.answered := by
  rw [pushAndEmpty, push_of_withhold h]
  rfl

/-- Bits that waited are written, from where they wait, to where they would have come without the
withheld answer (R74). -/
theorem WritesRun.resumes {bits : List Bool} {wr : Wr} {snk : Sink} {r : WrRun}
    (h : WritesRun bits wr snk r) {before after : List PushAnswer}
    (hw : WithholdsAfter .accept .withhold before after snk.answers) {job : WrJob} {wr' : Wr}
    {snk' : Sink} (hr : r = .waits job wr' snk') :
    runWr job wr' snk' = writeBits bits wr { snk with answers := before ++ after } := by
  induction h generalizing before with
  | nil | failed => cases hr
  | place hpos _ ih => rw [ih hw hr, writeBits_cons_done (writeBit_below hpos)]
  | @pushed b rest wr snk _ hpos ha _ ih =>
    obtain ⟨before', rfl, hw'⟩ := hw.eq_cons (by obtain ha | ha := ha <;> simp [ha])
    have haccepts : Sink.NextAccepts { snk with answers := .accept :: before' ++ after } := .inr rfl
    rw [ih hw' hr, writeBits_cons_done (writeBit_accepted hpos haccepts)]
    rfl
  | withheld _ hhead =>
    cases hr
    obtain rfl := hw.eq_nil (by decide) hhead
    rw [Sink.answered, hw.2]
    rfl

/-- A push that waited is made again, now without the withheld answer (R74). -/
theorem pushAndEmpty_resumes {job job' : WrJob} {b : Byte} {wr wr' : Wr} {snk snk' : Sink}
    {before after : List PushAnswer}
    (hw : WithholdsAfter .accept .withhold before after snk.answers)
    (hr : pushAndEmpty job b wr snk = .waits job' wr' snk') :
    job' = job ∧ wr' = wr ∧ snk' = { snk with answers := before ++ after } := by
  obtain ⟨-, hr'⟩ | ⟨left, -, hr'⟩ | ⟨hhead, hr'⟩ := pushAndEmpty_cases job b wr snk <;>
    cases hr'.symm.trans hr
  obtain rfl := hw.eq_nil (by decide) hhead
  exact ⟨rfl, rfl, by rw [hw.2]; rfl⟩

/-- WR work that waited goes on, from where it waits, to where it would have come without the
withheld answer (R74). -/
theorem runWr_resumes {job job' : WrJob} {wr wr' : Wr} {snk snk' : Sink}
    {before after : List PushAnswer}
    (hw : WithholdsAfter .accept .withhold before after snk.answers)
    (hr : runWr job wr snk = .waits job' wr' snk') :
    runWr job' wr' snk' = runWr job wr { snk with answers := before ++ after } := by
  cases job with
  | bits rest => exact (writeBits_runs rest wr snk).resumes hw hr
  | byte v =>
    obtain ⟨rfl, rfl, rfl⟩ := pushAndEmpty_resumes hw hr
    rfl
  | flush =>
    by_cases hpos : wr.pos = 0
    · cases (flushBits_of_aligned hpos).symm.trans hr
    · obtain ⟨rfl, rfl, rfl⟩ :=
        pushAndEmpty_resumes hw ((flushBits_of_pending hpos).symm.trans hr)
      rfl

/-- The end of WR work writes WR's registers, its waiting command and the sink anew. -/
theorem endWr_overwrites (s : State) (run : WrRun) (wr : Wr) (snk : Sink) (job : Option WrJob) :
    State.endWr run { s with wr := wr, sink := snk, wrJob := job } = s.endWr run := by
  cases run <;> rfl

/-- Settles O25: the work goes on from where it waits as it would have gone; an operand outside the
domain makes no write wait. -/
theorem answeredWriteEndsAsIfNeverStalled : Obligations.AnsweredWriteEndsAsIfNeverStalled := by
  intro s t i before after rest hi hready hbefore hanswers h hwaits
  obtain ⟨body, hbody⟩ : ∃ body, writeBody i = some body := by
    refine exists_writeBody ?_ ?_ <;> cases i <;> simp_all [unitOf, encodeOp]
  cases (exec_of_wrReady hbody hready).symm.trans h
  refine ⟨_, exec_of_wrReady hbody hready, ?_⟩
  cases writeBody_work hbody s.params with
  | raises cause info _ hraise =>
    rw [hraise s rfl, raise_wrJob] at hwaits
    exact absurd hready.2 hwaits
  | job job hwork =>
    rw [hwork s rfl] at hwaits ⊢
    rw [hwork { s with sink := _, inputs := rest } rfl, step_sinkAnswers]
    simp only [State.workWr] at hwaits ⊢
    cases hrun : runWr job s.wr s.sink with
    | done | raised => exact absurd (by rw [hrun]; rfl) hwaits
    | waits job' wr snk =>
      rw [endWr_waits]
      simp only [State.resumeWr, State.workWr]
      rw [runWr_resumes ⟨hbefore, hanswers⟩ hrun]
      exact congrArg _ (endWr_overwrites { s with sink := _, inputs := rest } _ wr snk _)

end Sys2Proof.Machine

namespace Sys2Proof.Machine

/-! ### The bits pushed before the sink fails or withholds its answer -/

/-- A bit placed is the next pending one; placed at position 7 it fills the byte (R130). -/
theorem placeBit_pending {wr : Wr} (h : wr.LowBitsZero) (b : Bool) :
    (wr.pos ≠ 7 → (byteBits (wr.placeBit b)).take (wr.pos + 1).val
        = (byteBits wr.acc).take wr.pos.val ++ [b])
    ∧ (wr.pos = 7 → byteBits (wr.placeBit b) = (byteBits wr.acc).take wr.pos.val ++ [b]) := by
  have ha : Sink.AlwaysAccepts { bytes := [], answers := [] } := fun _ h => by cases h
  obtain ⟨wr', snk', hbit, hbits, -⟩ := writeBit_of_accepts (job := .flush) (b := b) h ha
  constructor <;> intro hpos
  · cases (writeBit_below hpos).symm.trans hbit
    exact hbits
  · cases (writeBit_accepted hpos (AlwaysAccepts.next ha)).symm.trans hbit
    simpa [bitsInto, bytesBits, Sink.appended, Wr.emptied] using hbits

/-- Whole bytes of a bit stream that begins with a byte are that byte and the whole bytes after
it. -/
theorem take_byteBits_append (b : Byte) (bits : List Bool) (j : Nat) :
    (byteBits b ++ bits).take (8 * (j + 1)) = byteBits b ++ bits.take (8 * j) := by
  have hlen : (byteBits b).length = 8 := by simp [byteBits]
  rw [List.take_append, List.take_of_length_le (by omega), hlen, Nat.mul_succ, Nat.add_sub_cancel]

/-- A push that is not accepted ends the run of bits it stands in. -/
theorem writeBits_of_not_accepted {b : Bool} {rest : List Bool} {wr : Wr} {snk : Sink}
    (hpos : wr.pos = 7) (h : ¬ snk.NextAccepts) :
    writeBits (b :: rest) wr snk
      = pushAndEmpty (.bits (b :: rest)) (wr.placeBit b) wr snk := by
  rw [writeBits, writeBit_last hpos]
  obtain ⟨ha, -⟩ | ⟨left, -, hr⟩ | ⟨-, hr⟩ :=
    pushAndEmpty_cases (.bits (b :: rest)) (wr.placeBit b) wr snk
  · exact absurd ha h
  · rw [hr]
  · rw [hr]

/-- A run of bits whose first `j` pushes are accepted and whose next is not: the sink has the `j`
bytes that the pending bits and the run's bits make (R130, R191). -/
theorem writeBits_partial {a : PushAnswer} {answers : List PushAnswer} (ha : a ≠ .accept) :
    ∀ {bits : List Bool} {wr : Wr} {snk : Sink} {j : Nat}, wr.LowBitsZero →
      snk.answers = List.replicate j .accept ++ a :: answers →
      8 * (j + 1) ≤ wr.pos.val + bits.length →
      ∃ pushed job b wr', pushed.length = j
        ∧ bytesBits pushed = ((byteBits wr.acc).take wr.pos.val ++ bits).take (8 * j)
        ∧ writeBits bits wr snk
          = pushAndEmpty job b wr' { bytes := snk.bytes ++ pushed, answers := a :: answers }
  | [], wr, snk, j, _, _, hlen => by
    have := wr.pos.isLt
    simp only [List.length_nil] at hlen
    omega
  | b :: bits, wr, snk, j, hlow, hanswers, hlen => by
    obtain ⟨hbelow, hlast⟩ := placeBit_pending hlow b
    by_cases hpos : wr.pos = 7
    · cases j with
      | zero =>
        have hrefuses : ¬ snk.NextAccepts := by simpa [Sink.NextAccepts, hanswers] using ha
        have hsnk : snk = { bytes := snk.bytes ++ [], answers := a :: answers } := by
          rw [List.append_nil, ← hanswers.trans (List.nil_append _)]
        exact ⟨[], _, _, wr, rfl, rfl,
          (writeBits_of_not_accepted hpos hrefuses).trans (congrArg (pushAndEmpty _ _ wr) hsnk)⟩
      | succ j =>
        have haccepts : snk.NextAccepts := .inr (by rw [hanswers]; rfl)
        have h7 : wr.pos.val = 7 := congrArg Fin.val hpos
        obtain ⟨pushed, job, c, wr', hlength, hbits, hrun⟩ := writeBits_partial ha (bits := bits)
          (wr := wr.emptied) (snk := snk.appended (wr.placeBit b)) (j := j)
          (by simp [Wr.LowBitsZero, Wr.emptied]) (congrArg List.tail hanswers)
          (by simp only [Wr.emptied, List.length_cons] at hlen ⊢; omega)
        refine ⟨wr.placeBit b :: pushed, job, c, wr', congrArg (· + 1) hlength, ?_, ?_⟩
        · have hbyte : byteBits (wr.placeBit b) ++ bits
              = (byteBits wr.acc).take wr.pos.val ++ b :: bits := by rw [hlast hpos]; simp
          rw [← hbyte, take_byteBits_append]
          exact congrArg (byteBits (wr.placeBit b) ++ ·) hbits
        · rw [writeBits_cons_done (writeBit_accepted hpos haccepts), hrun]
          simp [Sink.appended]
    · obtain ⟨pushed, job, c, wr', hlength, hbits, hrun⟩ := writeBits_partial ha (bits := bits)
        (placeBit_lowBitsZero hlow hpos b) hanswers
        (by simp only [pos_succ_val hpos, List.length_cons] at hlen ⊢; omega)
      refine ⟨pushed, job, c, wr', hlength, ?_,
        (writeBits_cons_done (writeBit_below hpos)).trans hrun⟩
      rw [hbits, hbelow hpos, List.append_assoc]
      rfl

/-- Settles O52: the bits and bytes before the failing push or pull have been taken, and the fault
keeps the stream as it then is. -/
theorem effectsBeforeAFaultStay : Obligations.EffectsBeforeAFaultStay := by
  refine ⟨fun s i bits j left rest hi hready hinv hanswers hlen => ?write,
    fun s i v n j rest hi hready hanswers hidx hv hn hb => ?read⟩
  case write =>
    obtain ⟨pushed, job, b, wr', hlength, hbits, hrun⟩ :=
      writeBits_partial (by simp) (hinv.sound hready.1).low hanswers hlen
    have hfail := hrun.trans (pushAndEmpty_of_fail rfl)
    refine ⟨_, pushed, exec_of_writesBits hi hready, ?_, hlength, hbits, ?_⟩ <;>
      rw [State.workWr, runWr, hfail, endWr_raised]
    · exact raise_wrFaulted .snkIo 0 rfl
    · exact raise_sink ..
  case read =>
    obtain ⟨form, job, rd, hjob, hawaits, h8, hrun⟩ := runRd_partial_code hi hanswers hidx hv hn hb
    have hfail := hrun.trans
      (runRd_of_raised hawaits (by rw [readBit, if_pos h8, pull_of_fail rfl]))
    exact exec_of_runRd_raised hjob hready hfail

/-! ### A withheld answer -/

theorem readBit_of_withhold {job : RdJob} {rd : Rd} {src : Source} (h8 : rd.off = 8)
    (h : src.answers.head? = some .withhold) :
    readBit job rd src = .waits job rd src.answered := by
  rw [readBit, if_pos h8, pull_of_withhold h]

/-- Work that comes to a push the sink withholds its answer to waits (R55, R74). -/
theorem workWr_of_push_withheld {s : State} {job waiting : WrJob} {b : Byte} {wr : Wr}
    (hrun : runWr job s.wr s.sink = pushAndEmpty waiting b wr s.sink)
    (h : s.sink.answers.head? = some .withhold) :
    s.workWr job = { s with wr := wr, sink := s.sink.answered, wrJob := some waiting } := by
  rw [State.workWr, hrun, pushAndEmpty_of_withhold h, endWr_waits]

/-- RD work that waits keeps the status and the cause (R74). -/
theorem RdRuns.waits_keeps {p : Params} {job : RdJob} {rd : Rd} {src : Source} {r : RdRun Word}
    (h : RdRuns p job rd src r) {job' : RdJob} {rd' : Rd} {src' : Source}
    (hr : r = .waits job' rd' src') : rd'.st = rd.st ∧ rd'.fault = rd.fault := by
  induction h with
  | bit | byte | code | tooLong | pullFails => cases hr
  | bitWithheld | byteWithheld =>
    cases hr
    exact ⟨rfl, rfl⟩
  | next _ hbit _ ih =>
    obtain ⟨taken, -⟩ := readBit_done hbit
    obtain ⟨hst, hfault⟩ := ih hr
    exact ⟨hst.trans taken.st, hfault.trans taken.fault⟩

theorem pushAndEmpty_waits_keeps {job job' : WrJob} {b : Byte} {wr wr' : Wr} {snk snk' : Sink}
    (hr : pushAndEmpty job b wr snk = .waits job' wr' snk') : wr' = wr := by
  obtain ⟨-, hr'⟩ | ⟨left, -, hr'⟩ | ⟨-, hr'⟩ := pushAndEmpty_cases job b wr snk <;>
    cases hr'.symm.trans hr
  rfl

theorem WritesRun.waits_keeps {bits : List Bool} {wr : Wr} {snk : Sink} {r : WrRun}
    (h : WritesRun bits wr snk r) {job : WrJob} {wr' : Wr} {snk' : Sink}
    (hr : r = .waits job wr' snk') : wr'.st = wr.st ∧ wr'.fault = wr.fault := by
  induction h with
  | nil | failed => cases hr
  | place _ _ ih | pushed _ _ _ ih => exact ih hr
  | withheld =>
    cases hr
    exact ⟨rfl, rfl⟩

/-- WR work that waits keeps the status and the cause (R74). -/
theorem runWr_waits_keeps {job job' : WrJob} {wr wr' : Wr} {snk snk' : Sink}
    (hr : runWr job wr snk = .waits job' wr' snk') : wr'.st = wr.st ∧ wr'.fault = wr.fault := by
  cases job with
  | bits rest => exact (writeBits_runs rest wr snk).waits_keeps hr
  | byte v =>
    obtain rfl := pushAndEmpty_waits_keeps hr
    exact ⟨rfl, rfl⟩
  | flush =>
    by_cases hpos : wr.pos = 0
    · cases (flushBits_of_aligned hpos).symm.trans hr
    · obtain rfl := pushAndEmpty_waits_keeps ((flushBits_of_pending hpos).symm.trans hr)
      exact ⟨rfl, rfl⟩

/-- An RD command that ends waiting answers nothing and sets no status register (R74). -/
theorem exec_rd_waits {s t : State} {i : Instr} (hu : unitOf i = .rd) (h : exec i s = .next t)
    (hwaits : t.rdJob ≠ none) :
    t.responses = s.responses ∧ t.rd.st = s.rd.st ∧ t.rd.fault = s.rd.fault := by
  by_cases hi : i = .rdReset
  · subst hi
    obtain ⟨hjob, rfl⟩ := exec_rdReset_next.1 h
    exact absurd hjob hwaits
  · obtain ⟨job, hmem⟩ := exists_mem_readJobs hu hi
    rw [exec_of_mem_readJobs hmem] at h
    obtain ⟨hjob, ⟨-, rfl⟩ | ⟨-, rfl⟩⟩ := rdPreamble_next.1 h
    · exact absurd hjob hwaits
    · rw [State.workRd] at hwaits ⊢
      cases hrun : runRd s.params job s.rd s.source with
      | done | raised => exact absurd (by rw [hrun]; rfl) hwaits
      | waits job' rd src => exact ⟨rfl, (runRd_runs ..).waits_keeps hrun⟩

/-- A WR command that ends waiting answers nothing and sets no status register (R74). -/
theorem exec_wr_waits {s t : State} {i : Instr} (hu : unitOf i = .wr) (h : exec i s = .next t)
    (hwaits : t.wrJob ≠ none) :
    t.responses = s.responses ∧ t.wr.st = s.wr.st ∧ t.wr.fault = s.wr.fault := by
  obtain ⟨-, hjob, rfl⟩ | ⟨hjob, ⟨-, rfl⟩ | ⟨-, cause, info, -, rfl⟩ | ⟨-, job, rfl⟩⟩ :=
    exec_wr_cases hu h
  · exact absurd hjob hwaits
  · exact absurd hjob hwaits
  · exact absurd ((raise_wrJob ..).trans hjob) hwaits
  · rw [State.workWr] at hwaits ⊢
    cases hrun : runWr job s.wr s.sink with
    | done | raised => exact absurd (by rw [hrun]; rfl) hwaits
    | waits job' wr snk => exact ⟨rfl, runWr_waits_keeps hrun⟩

/-- A unit whose command waits takes no command, its reset among them (R74, R91). -/
theorem exec_rd_busy {t : State} {i : Instr} (hjob : t.rdJob ≠ none) (hu : unitOf i = .rd) :
    exec i t = .refused .readerBusy := by
  by_cases hi : i = .rdReset
  · subst hi
    exact rdUnlessBusy_busy (body := fun s => (s.resetUnit .rd).respond .ok 0 0) hjob
  · obtain ⟨job, hmem⟩ := exists_mem_readJobs hu hi
    exact (exec_of_mem_readJobs hmem t).trans (rdPreamble_busy hjob)

theorem exec_wr_busy {t : State} {i : Instr} (hjob : t.wrJob ≠ none) (hu : unitOf i = .wr) :
    exec i t = .refused .writerBusy := by
  by_cases hi : i = .wrReset
  · subst hi
    exact wrUnlessBusy_busy (body := fun s => (s.resetUnit .wr).respond .ok 0 0) hjob
  · obtain ⟨body, hbody⟩ := exists_writeBody hu hi
    exact (exec_of_writeBody hbody t).trans (wrPreamble_busy hjob)

/-- Settles O23, clause by clause: the first answer withheld and a later one, for RD and for WR;
what a waiting command leaves; and what its unit refuses. -/
theorem stalledCommandGivesNoResponse : Obligations.StalledCommandGivesNoResponse := by
  refine ⟨fun s hready hw => ⟨fun h8 => ?readBits, ?readByte⟩,
    fun s i v n j rest hi hready hanswers hidx hv hn hb => ?partialRead,
    fun s hready hw => ⟨fun b hpos => ?writeBit, fun v => ?writeByte, fun hpos => ?flush⟩,
    fun s i bits j rest hi hready hinv hanswers hlen => ?partialWrite,
    fun s t i h => ⟨fun hu hwaits => ?rdWaits, fun hu hwaits => ?wrWaits⟩,
    fun t j => ⟨exec_rd_busy, exec_wr_busy⟩⟩
  case readBits =>
    have hwaits : ∀ {i job}, (i, job) ∈ readJobs → job.AwaitsBit → exec i s
        = .next { s with source := s.source.answered, rdJob := some job } :=
      fun hi hawaits =>
        exec_of_runRd_waits hi hready (runRd_of_waits hawaits (readBit_of_withhold h8 hw))
    exact ⟨hwaits (by decide) trivial, hwaits (by decide) trivial, hwaits (by decide) trivial,
      hwaits (by decide) trivial⟩
  case readByte =>
    exact exec_of_runRd_waits (job := .byte) (by decide) hready
      (by rw [runRd, pullByte, pull_of_withhold hw])
  case partialRead =>
    obtain ⟨form, job, rd, hjob, hawaits, h8, hrun⟩ := runRd_partial_code hi hanswers hidx hv hn hb
    have hwaits := hrun.trans (runRd_of_waits hawaits (readBit_of_withhold h8 rfl))
    exact ⟨_, exec_of_runRd_waits hjob hready hwaits, Option.some_ne_none job, rfl⟩
  case writeBit =>
    have hwaits : ∀ i ∈ [Instr.writeBit (BitVec.ofBool b), Instr.writeBool b], exec i s
        = .next { s with sink := s.sink.answered, wrJob := some (.bits [b]) } := by
      intro i hi
      rw [exec_of_wrReady (writeBody_of_mem_bitWrites hi) hready]
      exact congrArg _ (workWr_of_push_withheld
        ((writeBits_singleton b s.wr s.sink).trans (writeBit_last hpos)) hw)
    exact ⟨hwaits _ (.head _), hwaits _ (.tail _ (.head _))⟩
  case writeByte =>
    exact (exec_of_wrReady rfl hready).trans (congrArg _ (workWr_of_push_withheld rfl hw))
  case flush =>
    exact (exec_of_wrReady rfl hready).trans
      (congrArg _ (workWr_of_push_withheld (job := .flush) (flushBits_of_pending hpos) hw))
  case partialWrite =>
    obtain ⟨pushed, job, b, wr', hlength, hbits, hrun⟩ :=
      writeBits_partial (by simp) (hinv.sound hready.1).low hanswers hlen
    have hwaits := hrun.trans (pushAndEmpty_of_withhold rfl)
    refine ⟨_, pushed, exec_of_writesBits hi hready, ?_, hlength, hbits, ?_⟩ <;>
      rw [State.workWr, runWr, hwaits, endWr_waits]
    · exact Option.some_ne_none job
    · rfl
  case rdWaits =>
    obtain ⟨hresp, hst, hfault⟩ := exec_rd_waits hu h hwaits
    exact ⟨hresp, hst, hfault, exec_onlyRd hu h⟩
  case wrWaits =>
    obtain ⟨hresp, hst, hfault⟩ := exec_wr_waits hu h hwaits
    exact ⟨hresp, hst, hfault, exec_onlyWr hu h⟩

end Sys2Proof.Machine

namespace Sys2Proof.Machine

/-! ### Two states that agree on one unit -/

/-- The states agree on the responses, the counter of free values and all that is RD's. -/
abbrev AgreeOnRd (s s' : State) : Prop :=
  s'.responses = s.responses ∧ s'.freeIdx = s.freeIdx ∧ s'.rd = s.rd ∧ s'.rdJob = s.rdJob
    ∧ s'.source = s.source

/-- The states agree on the responses, the counter of free values and all that is WR's. -/
abbrev AgreeOnWr (s s' : State) : Prop :=
  s'.responses = s.responses ∧ s'.freeIdx = s.freeIdx ∧ s'.wr = s.wr ∧ s'.wrJob = s.wrJob
    ∧ s'.sink = s.sink

/-- The states agree on the responses, the counter of free values and all that is NS's. -/
abbrev AgreeOnNs (s s' : State) : Prop :=
  s'.responses = s.responses ∧ s'.freeIdx = s.freeIdx ∧ s'.ns = s.ns ∧ s'.buf = s.buf
    ∧ s'.scanBuf = s.scanBuf

theorem plus_congr {s s' : State} (h : s'.responses = s.responses) :
    s'.plus = s.plus := by
  unfold State.plus
  rw [h]

/-- What RD work does depends on what is RD's alone. -/
theorem workRd_agree {s s' : State} (h : AgreeOnRd s s') (hparams : s'.params = s.params)
    (job : RdJob) : AgreeOnRd (s.workRd job) (s'.workRd job) := by
  obtain ⟨hresp, hfree, hrd, hjob, hsrc⟩ := h
  rw [State.workRd, State.workRd, hparams, hrd, hsrc]
  cases runRd s.params job s.rd s.source <;>
    simp [AgreeOnRd, endRd_done, endRd_raised, endRd_waits, State.plus, State.markFaulted, hresp,
      hfree]

theorem exec_rd_agree {s s' t : State} {i : Instr} (hu : unitOf i = .rd) (h : AgreeOnRd s s')
    (hparams : s'.params = s.params) (ht : exec i s = .next t) :
    ∃ t', exec i s' = .next t' ∧ AgreeOnRd t t' := by
  obtain ⟨hresp, hfree, hrd, hjob, hsrc⟩ := id h
  have hplus := plus_congr hresp
  by_cases hi : i = .rdReset
  · subst hi
    obtain ⟨hnone, rfl⟩ := exec_rdReset_next.1 ht
    exact ⟨_, exec_rdReset_next.2 ⟨hjob.trans hnone, rfl⟩,
      by simp [AgreeOnRd, hplus, hfree, hjob, hsrc]⟩
  · obtain ⟨job, hmem⟩ := exists_mem_readJobs hu hi
    rw [exec_of_mem_readJobs hmem] at ht ⊢
    obtain ⟨hnone, ⟨hst, rfl⟩ | ⟨hst, rfl⟩⟩ := rdPreamble_next.1 ht
    · exact ⟨_, rdPreamble_next.2 ⟨hjob.trans hnone, .inl ⟨hrd ▸ hst, rfl⟩⟩,
        by simp [AgreeOnRd, hplus, hfree, hrd, hjob, hsrc]⟩
    · exact ⟨_, rdPreamble_next.2 ⟨hjob.trans hnone, .inr ⟨hrd ▸ hst, rfl⟩⟩,
        workRd_agree h hparams job⟩

/-- What WR work does depends on what is WR's alone. -/
theorem workWr_agree {s s' : State} (h : AgreeOnWr s s') (job : WrJob) :
    AgreeOnWr (s.workWr job) (s'.workWr job) := by
  obtain ⟨hresp, hfree, hwr, hjob, hsnk⟩ := h
  rw [State.workWr, State.workWr, hwr, hsnk]
  cases runWr job s.wr s.sink <;>
    simp [AgreeOnWr, endWr_done, endWr_raised, endWr_waits, State.plus, State.markFaulted, hresp,
      hfree]

theorem raise_wr_agree {s s' : State} (h : AgreeOnWr s s') (cause : Status) (info : Word) :
    AgreeOnWr (s.raise .wr cause info) (s'.raise .wr cause info) := by
  obtain ⟨hresp, hfree, -, hjob, hsnk⟩ := h
  simp [AgreeOnWr, State.plus, State.markFaulted, hresp, hfree, hjob, hsnk]

theorem exec_wr_agree {s s' t : State} {i : Instr} (hu : unitOf i = .wr) (h : AgreeOnWr s s')
    (hparams : s'.params = s.params) (ht : exec i s = .next t) :
    ∃ t', exec i s' = .next t' ∧ AgreeOnWr t t' := by
  obtain ⟨hresp, hfree, hwr, hjob, hsnk⟩ := id h
  have hplus := plus_congr hresp
  by_cases hi : i = .wrReset
  · subst hi
    obtain ⟨hnone, rfl⟩ := exec_wrReset_next.1 ht
    exact ⟨_, exec_wrReset_next.2 ⟨hjob.trans hnone, rfl⟩,
      by simp [AgreeOnWr, hplus, hfree, hjob, hsnk]⟩
  · obtain ⟨body, hbody⟩ := exists_writeBody hu hi
    rw [exec_of_writeBody hbody] at ht ⊢
    obtain ⟨hnone, ⟨hst, rfl⟩ | ⟨hst, rfl⟩⟩ := wrPreamble_next.1 ht
    · exact ⟨_, wrPreamble_next.2 ⟨hjob.trans hnone, .inl ⟨hwr ▸ hst, rfl⟩⟩,
        by simp [AgreeOnWr, hplus, hfree, hwr, hjob, hsnk]⟩
    · refine ⟨_, wrPreamble_next.2 ⟨hjob.trans hnone, .inr ⟨hwr ▸ hst, rfl⟩⟩, ?_⟩
      cases writeBody_work hbody s.params with
      | job job hwork =>
        rw [hwork s rfl, hwork s' hparams]
        exact workWr_agree h job
      | raises cause info _ hraise =>
        rw [hraise s rfl, hraise s' hparams]
        exact raise_wr_agree h cause info

/-- `ns_init` with a buffer that does not begin with a start code raises the fault (R162). -/
theorem beginScan_of_bad {s : State} {len : Word} (h : startCodeAt s.buf len.toNat 0 = 0) :
    s.beginScan len = State.raise .ns .badStartCode 0
      { s with ns := { s.ns with len := len, pos := 0, fault := 0x00 }, scanBuf := s.buf } :=
  if_pos h

theorem beginScan_agree {s s' : State} (h : AgreeOnNs s s') (len : Word) :
    AgreeOnNs (s.beginScan len) (s'.beginScan len) := by
  obtain ⟨hresp, hfree, -, hbuf, -⟩ := h
  obtain ⟨hcode, hs⟩ | ⟨hcode, -⟩ := beginScan_cases s len
  · obtain ⟨-, hs'⟩ | ⟨hcode', -⟩ := beginScan_cases s' len
    · rw [hs, hs']
      simp [AgreeOnNs, plus_congr hresp, hfree, hbuf]
    · exact absurd (hbuf ▸ hcode') hcode
  · rw [beginScan_of_bad hcode, beginScan_of_bad (hbuf ▸ hcode)]
    simp [AgreeOnNs, State.plus, State.markFaulted, hresp, hfree, hbuf]

theorem nextUnit_agree {s s' : State} (h : AgreeOnNs s s') : AgreeOnNs s.nextUnit s'.nextUnit := by
  obtain ⟨hresp, hfree, hns, hbuf, hscanBuf⟩ := h
  have hplus := plus_congr hresp
  by_cases hpos : s.ns.pos = s.ns.len
  · rw [nextUnit_at_end hpos, nextUnit_at_end (hns ▸ hpos)]
    simp [AgreeOnNs, hplus, hfree, hns, hbuf, hscanBuf]
  cases hf : findStartCode s.scanBuf s.ns.len.toNat (s.ns.len.toNat - s.ns.pos.toNat)
      s.ns.pos.toNat with
  | none =>
    rw [nextUnit_of_none hpos hf, nextUnit_of_none (hns ▸ hpos) (by rw [hns, hscanBuf, hf])]
    simp [AgreeOnNs, hplus, hfree, hns, hbuf, hscanBuf]
  | some found =>
    rw [nextUnit_of_found hpos hf,
      nextUnit_of_found (s := s') (hns ▸ hpos) (by rw [hns, hscanBuf, hf])]
    simp [AgreeOnNs, hplus, hfree, hns, hbuf, hscanBuf]

theorem exec_ns_agree {s s' t : State} {i : Instr} (hu : unitOf i = .ns) (h : AgreeOnNs s s')
    (ht : exec i s = .next t) : ∃ t', exec i s' = .next t' ∧ AgreeOnNs t t' := by
  obtain ⟨hresp, hfree, hns, hbuf, hscanBuf⟩ := id h
  have hplus := plus_congr hresp
  cases i with
  | nsInit len =>
    cases ht
    exact ⟨_, rfl, beginScan_agree h len⟩
  | nsReset =>
    cases (exec_nsReset s).symm.trans ht
    exact ⟨_, exec_nsReset s', by simp [AgreeOnNs, hplus, hfree, hbuf, hscanBuf]⟩
  | nsNext =>
    obtain ⟨hst, rfl⟩ | ⟨hst, rfl⟩ | ⟨hst, rfl⟩ | ⟨hst, rfl⟩ := nsPreamble_next.1 ht <;>
      rw [← hns] at hst
    · exact ⟨_, nsPreamble_next.2 (.inl ⟨hst, rfl⟩),
        by simp [AgreeOnNs, hplus, hfree, hns, hbuf, hscanBuf]⟩
    · exact ⟨_, nsPreamble_next.2 (.inr (.inl ⟨hst, rfl⟩)),
        by simp [AgreeOnNs, hplus, hfree, hns, hbuf, hscanBuf]⟩
    · exact ⟨_, nsPreamble_next.2 (.inr (.inr (.inl ⟨hst, rfl⟩))),
        by simp [AgreeOnNs, hplus, hfree, hns, hbuf, hscanBuf]⟩
    · exact ⟨_, nsPreamble_next.2 (.inr (.inr (.inr ⟨hst, rfl⟩))), nextUnit_agree h⟩
  | _ => cases hu

/-- Settles O57, unit by unit. -/
theorem answersDependOnTheOwnUnitAlone : Obligations.AnswersDependOnTheOwnUnitAlone := by
  intro s s' t i hresp hfree ht
  exact ⟨fun hu hparams hrd hjob hsrc =>
      exec_rd_agree hu ⟨hresp, hfree, hrd, hjob, hsrc⟩ hparams ht,
    fun hu hparams hwr hjob hsnk =>
      exec_wr_agree hu ⟨hresp, hfree, hwr, hjob, hsnk⟩ hparams ht,
    fun hu hns hbuf hscanBuf => exec_ns_agree hu ⟨hresp, hfree, hns, hbuf, hscanBuf⟩ ht⟩

end Sys2Proof.Machine
